-- ==== Sys2Proof/Word.lean ====
section
/-! DEFINITION. The widths of the engine's data (spec/00_scope.md R9, R10): a byte is 8 bits, a word
is 32 bits, a command word is 16 bits, a message length is 64 bits. -/

namespace Sys2Proof

/-- A 32-bit word, `WORD` of R9. -/
abbrev Word := BitVec 32

/-- A byte, 8 bits (R10). -/
abbrev Byte := BitVec 8

/-- One word of the command port, `CMD_WIDTH` of R9. -/
abbrev CmdWord := BitVec 16

/-- A message length in bits, `LEN_BITS` of R9. -/
abbrev BitLength := BitVec 64

/-- The HashState `H[0..7]` (R23): `HASH_WORDS` = 8 words. -/
abbrev HashState := Vector Word 8

/-- The Digest `DG[0..31]` (R31): `DIGEST_BYTES` = 32 bytes. -/
abbrev Digest := Vector Byte 32

end Sys2Proof
end

