-- ==== Sys2Proof/Syntax.lean ====
section
/-! DEFINITION. The commands of the engine (spec/opcode_table.json, one constructor a row), the three
fields of a command word (spec/30_encoding.md R72), and the assembler's lines (R80, R81). -/

namespace Sys2Proof

/-- The four commands (R4, R77). The block compressor is no command: only `update` and `finalize`
start it. -/
inductive Instr where
  /-- NOP, R141. -/
  | nop
  /-- INIT, R142. -/
  | init
  /-- UPDATE b, R143: `data` is the next message byte. -/
  | update (data : Byte)
  /-- FINALIZE, R170. -/
  | finalize
  deriving DecidableEq, Repr

/-- The fields of a command word (R72). -/
structure CmdFields where
  /-- `OP`, bits 15:12. -/
  op : BitVec 4
  /-- `RSV`, bits 11:8. -/
  rsv : BitVec 4
  /-- `DATA`, bits 7:0. -/
  data : Byte
  deriving DecidableEq, Repr

/-- Why a word is illegal: the three groups of R79. -/
inductive Illegal where
  /-- `OP` is in 0x4..0xF. -/
  | opcode
  /-- `OP` is a command's and `RSV` is not 0. -/
  | reserved
  /-- NOP, INIT or FINALIZE with `DATA` not 0. -/
  | data
  deriving DecidableEq, Repr

/-- A byte operand as the assembler spells it (R80). -/
inductive AsmByte where
  /-- A number, decimal or `0x` hexadecimal. -/
  | number (n : Nat)
  /-- A character literal `'c'`. -/
  | char (c : Char)
  deriving DecidableEq, Repr

/-- One line of the assembler: the commands and `.word` of R80, the pseudo-commands of R81. -/
inductive AsmLine where
  | nop
  | init
  | finalize
  | update (b : AsmByte)
  /-- `.word 0xNNNN`: any 16-bit word, legal or not. -/
  | word (n : Nat)
  | updateBytes (bs : List AsmByte)
  | updateStr (text : List Char)
  | hash (bs : List AsmByte)
  deriving DecidableEq, Repr

end Sys2Proof
end

