-- ==== Sys2Proof/WellFormed.lean ====
section
/-! DEFINITION. Which command words and which assembler lines are well formed (spec/30_encoding.md R72,
R79, R80). -/

namespace Sys2Proof

/-- `OP` names a command: 0x0..0x3 (R77, R79). -/
def CmdFields.opOk (f : CmdFields) : Bool := f.op.toNat < 4

/-- `RSV` must be 0 in every legal command (R72). -/
def CmdFields.rsvOk (f : CmdFields) : Bool := f.rsv == 0

/-- `DATA` is the message byte of UPDATE and must be 0 for every other opcode (R72). -/
def CmdFields.dataOk (f : CmdFields) : Bool := f.op == 2 || f.data == 0

/-- The fields are those of a legal command word. -/
def CmdFields.wf (f : CmdFields) : Bool := f.opOk && f.rsvOk && f.dataOk

/-- The fields a command is written with (R72, R77). -/
def Instr.fields : Instr → CmdFields
  | .nop => ⟨0, 0, 0⟩
  | .init => ⟨1, 0, 0⟩
  | .update b => ⟨2, 0, b⟩
  | .finalize => ⟨3, 0, 0⟩

/-- A command is well formed when its fields are. UPDATE's operand is 8 bits wide by its type (R76),
so every command is. -/
def Instr.wf (i : Instr) : Bool := i.fields.wf

/-- A byte operand is a number from 0 to 255, or a character with an ASCII code (R80). -/
def AsmByte.wf : AsmByte → Bool
  | .number n => n < 256
  | .char c => c.toNat < 128

/-- Every operand of the line is well formed; `.word` takes a 16-bit number (R80, R81). -/
def AsmLine.wf : AsmLine → Bool
  | .nop | .init | .finalize => true
  | .update b => b.wf
  | .word n => n < 65536
  | .updateBytes bs => bs.all AsmByte.wf
  | .updateStr text => text.all fun c => (AsmByte.char c).wf
  | .hash bs => bs.all AsmByte.wf

end Sys2Proof
end

