-- ==== Sys2Proof/Decode.lean ====
section
/-! DEFINITION. The decoder of the command port (spec/30_encoding.md R72, R77 to R79), total over all
2^16 words, and the encoder. -/

namespace Sys2Proof

/-- The fields of a command word: `OP` = cmd[15:12], `RSV` = cmd[11:8], `DATA` = cmd[7:0] (R72). -/
def CmdFields.ofWord (w : CmdWord) : CmdFields :=
  ⟨w.extractLsb' 12 4, w.extractLsb' 8 4, w.extractLsb' 0 8⟩

/-- The command word with the given fields (R72). -/
def CmdFields.toWord (f : CmdFields) : CmdWord :=
  f.op.setWidth 16 <<< 12 ||| f.rsv.setWidth 16 <<< 8 ||| f.data.setWidth 16

/-- The opcodes of the opcode map (R77). -/
inductive Opcode where
  | nop | init | update | finalize
  deriving DecidableEq, Repr

/-- A row of the opcode map (R77): `op` is matched by `cmd` when `(cmd & mask) = pattern`. -/
structure OpcodeRow where
  op : Opcode
  pattern : CmdWord
  mask : CmdWord
  deriving DecidableEq, Repr

/-- The opcode map of R77, complete. -/
def opcodeMap : List OpcodeRow :=
  [ ⟨.nop, 0x0000, 0xFFFF⟩,
    ⟨.init, 0x1000, 0xFFFF⟩,
    ⟨.update, 0x2000, 0xFF00⟩,
    ⟨.finalize, 0x3000, 0xFFFF⟩ ]

/-- The row matches the word (R77). -/
def OpcodeRow.matches (r : OpcodeRow) (w : CmdWord) : Bool := (w &&& r.mask) == r.pattern

/-- The command of an opcode, with `DATA` as UPDATE's operand (R76). -/
def Opcode.toInstr (data : Byte) : Opcode → Instr
  | .nop => .nop
  | .init => .init
  | .update => .update data
  | .finalize => .finalize

/-- Which group of R79 an illegal word belongs to. DESIGN CHOICE
(notes/assumptions/13.md): the engine keeps no trace of it (R200). -/
def illegalReason (f : CmdFields) : Illegal :=
  if !f.opOk then .opcode else if !f.rsvOk then .reserved else .data

/-- The decoder: the command whose row matches, or the reason why none does (R77 to R79). -/
def decode (w : CmdWord) : Except Illegal Instr :=
  match opcodeMap.find? (·.matches w) with
  | some r => .ok (r.op.toInstr (CmdFields.ofWord w).data)
  | none => .error (illegalReason (CmdFields.ofWord w))

/-- The word of a command (R77): `0x0000`, `0x1000`, `0x2000 | b`, `0x3000`. -/
def encode : Instr → CmdWord
  | .nop => 0x0000
  | .init => 0x1000
  | .update b => 0x2000 ||| b.setWidth 16
  | .finalize => 0x3000

/-- The command word that a table row's bits give: the low `nbits` bits of `w`, bits above being 0. -/
def tableWord (nbits w : Nat) : CmdWord := BitVec.ofNat 16 (w % 2 ^ nbits)

/-- What the decoder reads from an instruction whose bits are `w`, numbered as the opcode table numbers
them. A command is always one 16-bit word (R70). -/
def decodeTableWord (nbits w : Nat) : Option Instr :=
  if nbits ≤ 16 then
    match decode (tableWord nbits w) with
    | .ok i => some i
    | .error _ => none
  else none

end Sys2Proof
end

