-- ==== Sys2Proof/Machine/Bytes.lean ====
section
/-! DEFINITION. Byte order: the big-endian conversions between bytes and wider values (spec/00_scope.md
R12, spec/20_memory.md R53 to R56). There is no other byte order and no switch (R56). -/

namespace Sys2Proof.Machine

/-- `be32(b0, b1, b2, b3)`: the first byte is the most significant (R12). -/
def be32 (b0 b1 b2 b3 : Byte) : Word :=
  b0.setWidth 32 <<< 24 ||| b1.setWidth 32 <<< 16 ||| b2.setWidth 32 <<< 8 ||| b3.setWidth 32

/-- `bytes_be(v, n)`: `n` bytes, the first holding `v[8n-1:8n-8]`, the last `v[7:0]` (R12). -/
def bytesBE {w : Nat} (v : BitVec w) (n : Nat) : List Byte :=
  (List.range n).map fun k => v.extractLsb' (8 * (n - 1 - k)) 8

end Sys2Proof.Machine
end

