-- ==== Sys2Proof/Machine/Compressor.lean ====
section
/-! DEFINITION. The block compressor (spec/40_compressor.md R100 to R119): pure functions, total, raising
no error (R117). The schedule and the working variables are values of these functions and no field of
State: they are transient (spec/10_state.md R34). -/

namespace Sys2Proof.Machine

/-- `rotr(x, n)`, the 32-bit circular right rotate (R100). -/
def rotr (x : Word) (n : Nat) : Word := x >>> n ||| x <<< (32 - n)

/-- `Ch(x, y, z)` (R102). -/
def ch (x y z : Word) : Word := (x &&& y) ^^^ (~~~x &&& z)

/-- `Maj(x, y, z)` (R103). -/
def maj (x y z : Word) : Word := (x &&& y) ^^^ (x &&& z) ^^^ (y &&& z)

/-- `Σ0(x)` (R104). -/
def bigSigma0 (x : Word) : Word := rotr x 2 ^^^ rotr x 13 ^^^ rotr x 22

/-- `Σ1(x)` (R105). -/
def bigSigma1 (x : Word) : Word := rotr x 6 ^^^ rotr x 11 ^^^ rotr x 25

/-- `σ0(x)` (R106); `x >> 3` is the logical shift of R101. -/
def smallSigma0 (x : Word) : Word := rotr x 7 ^^^ rotr x 18 ^^^ x >>> 3

/-- `σ1(x)` (R107); `x >> 10` is the logical shift of R101. -/
def smallSigma1 (x : Word) : Word := rotr x 17 ^^^ rotr x 19 ^^^ x >>> 10

/-- `add32(x1, ..., xk)`: the exact sum reduced mod 2^32 (R11, R108). -/
def add32 (xs : List Word) : Word := BitVec.ofNat 32 (xs.map BitVec.toNat).sum

/-- Schedule words 0 to 15: the block as big-endian words (R53, R110). -/
def blockWords : List Byte → List Word
  | b0 :: b1 :: b2 :: b3 :: rest => be32 b0 b1 b2 b3 :: blockWords rest
  | _ => []

/-- The schedule word that follows the words `w`, at least 16 of them (R111):
`W[i] = add32(σ1(W[i-2]), W[i-7], σ0(W[i-15]), W[i-16])` with `i` the number of words so far. -/
def nextWord (w : List Word) : Word :=
  let i := w.length
  add32 [smallSigma1 (w.getD (i - 2) 0), w.getD (i - 7) 0, smallSigma0 (w.getD (i - 15) 0),
    w.getD (i - 16) 0]

/-- `n` more schedule words, in increasing index (R111). -/
def extendSchedule : Nat → List Word → List Word
  | 0, w => w
  | n + 1, w => extendSchedule n (w ++ [nextWord w])

/-- The message schedule `W[0..63]` of a block (R110, R111). -/
def schedule (blk : List Byte) : List Word := extendSchedule 48 (blockWords blk)

/-- The working variables `a..h` inside one compression (R112). -/
structure WorkVars where
  a : Word
  b : Word
  c : Word
  d : Word
  e : Word
  f : Word
  g : Word
  h : Word
  deriving DecidableEq, Repr

/-- Loading the working variables (R112). -/
def loadVars (hin : HashState) : WorkVars :=
  ⟨hin[0], hin[1], hin[2], hin[3], hin[4], hin[5], hin[6], hin[7]⟩

/-- `t1` of a round (R113). -/
def roundT1 (v : WorkVars) (k w : Word) : Word := add32 [v.h, bigSigma1 v.e, ch v.e v.f v.g, k, w]

/-- `t2` of a round (R113). -/
def roundT2 (v : WorkVars) : Word := add32 [bigSigma0 v.a, maj v.a v.b v.c]

/-- One round (R113): every right-hand side reads the values from before the round. -/
def oneRound (v : WorkVars) (k w : Word) : WorkVars where
  a := add32 [roundT1 v k w, roundT2 v]
  b := v.a
  c := v.b
  d := v.c
  e := add32 [v.d, roundT1 v k w]
  f := v.e
  g := v.f
  h := v.g

/-- The rounds in order, round `i` with `K[i]` and `W[i]` (R114). -/
def runRounds (v : WorkVars) (w : List Word) : WorkVars :=
  (kRom.toList.zip w).foldl (fun v kw => oneRound v kw.1 kw.2) v

/-- The final addition (R115): each word wraps by itself. -/
def finalAdd (hin : HashState) (v : WorkVars) : HashState :=
  #v[add32 [hin[0], v.a], add32 [hin[1], v.b], add32 [hin[2], v.c], add32 [hin[3], v.d],
    add32 [hin[4], v.e], add32 [hin[5], v.f], add32 [hin[6], v.g], add32 [hin[7], v.h]]

/-- `compress(Hin, blk)`, the compression function (R116). Every use has a block of 64 bytes (R117). -/
def compress (hin : HashState) (blk : List Byte) : HashState :=
  finalAdd hin (runRounds (loadVars hin) (schedule blk))

/-- The rounds with a sliding window of the schedule in place of its 64 words, an organisation R119
allows: the window's first word is the round's `W[i]`. -/
def runWindow : List Word → List Word → WorkVars → WorkVars
  | [], _, v => v
  | k :: ks, win, v => runWindow ks (win.tail ++ [nextWord win]) (oneRound v k (win.headD 0))

/-- The compressor organised around a 16-word sliding window (R119). The engine's meaning is `compress`. -/
def compressWindow (hin : HashState) (blk : List Byte) : HashState :=
  finalAdd hin (runWindow kRom.toList (blockWords blk) (loadVars hin))

/-- `serialize(H)`: the words in order, each most significant byte first (R177, R55). -/
def serialize (h : HashState) : Digest :=
  ⟨⟨h.toList.flatMap fun x => bytesBE x 4⟩, by simp [bytesBE]⟩

end Sys2Proof.Machine
end

