-- ==== Sys2Proof/Config.lean ====
section
/-! DEFINITION. What is fixed for this engine and what the spec leaves open. The fixed parameters are
those of spec/00_scope.md R9. The free values are constants with no body: nothing in Lean can tell what
they are (spec/93_implementation_defined.md U4). -/

namespace Sys2Proof.Config

/-- `BLOCK_BYTES` of R9: the bytes of one block, and the capacity of `BUF` (R25, R50). -/
abbrev blockBytes : Nat := 64

/-- `LEN_FIELD_OFFSET` of R9: the length field is bytes 56..63 of the last block. -/
abbrev lenFieldOffset : Nat := 56

/-- `MAX_MESSAGE_BYTES` of R9: the longest message the engine hashes. -/
abbrev maxMessageBytes : Nat := 2 ^ 61 - 1

/-- What a byte of `BUF` that nothing has written reads as.
DESIGN CHOICE (notes/assumptions/1.md), unsafe: R26 leaves these bytes unspecified. -/
abbrev unlistedByte : Byte := 0

/-- FREE VALUE (notes/assumptions/3.md): what the `status` port shows while `cmd_ready = 0`, at the
`n`-th such edge (R235, U4). -/
opaque busyStatus : Nat → BitVec 16

/-- FREE VALUE (notes/assumptions/3.md): what the `digest` port shows while `cmd_ready = 0`, at the
`n`-th such edge (R235, U4). -/
opaque busyDigest : Nat → BitVec 256

end Sys2Proof.Config
end

