-- ==== Sys2Proof/Machine/State.lean ====
section
/-! DEFINITION. The state of the engine as plain data: the architectural state of spec/10_state.md R20,
and beside it what the host does to the port (spec/30_encoding.md R71, R73), which one deterministic
step reads. -/

namespace Sys2Proof.Machine

/-- The reasons a step can stop with a fault. -/
inductive Fault where
  /-- Raised by `memRead` and `memWrite` (Ops.lean) on an access outside `BUF[0..63]`: R13 and R50 give
  no such byte. Safe: the model stops; no command raises it in any state, since every use meets the
  bound by construction (R13). DEDUCED (notes/assumptions/12.md). -/
  | bufIndex (index count : Nat)
  deriving DecidableEq, Repr

/-- The reasons a step can have no meaning. -/
inductive Refusal where
  /-- Raised by `exec` for a command with no meaning yet; no arm does so. Safe. -/
  | notModelled (mnemonic : String)
  /-- Raised by `step` when the host breaks the command-stability rule R234: which word is accepted is
  then unspecified, and a model refuses such a run (U5). Safe. -/
  | unstableCommand
  deriving DecidableEq, Repr

/-- The 2-bit sticky error register `ERRCODE` (R30). -/
inductive ErrCode where
  /-- 0: no error. -/
  | none
  /-- 1: an illegal command word was accepted (R203). -/
  | illegalCommand
  /-- 2: UPDATE or FINALIZE was accepted while `FIN = 1` (R204). -/
  | misuse
  /-- 3: UPDATE would make the message length reach 2^64 bits (R205). -/
  | inputTooLarge
  deriving DecidableEq, Repr

/-- The pending buffer `BUF[0..63]`, the engine's one byte-addressed space (R50): a list of (index, byte)
in canonical form (`Memory.wf` in Ops.lean). -/
abbrev Memory := List Host.Cell

/-- What the host drives on the engine's input ports at one rising edge of `clk` (R71). -/
structure Pins where
  rst : Bool
  cmdValid : Bool
  cmd : CmdWord
  deriving DecidableEq, Repr

/-- The engine with its host port. The fields `h` to `dg` are the architectural state (R20); the others
are the model's own: the ghost flag of U13, and the port. -/
structure State where
  /-- `H[0..7]`, the HashState (R23). -/
  h : HashState
  /-- `BUF[0..63]`, the PendingBuffer (R25). -/
  buf : Memory
  /-- `BUFLEN`, the 6-bit fill count (R27). -/
  buflen : BitVec 6
  /-- `TBL`, the TotalBitLength (R28). -/
  tbl : BitLength
  /-- `FIN`, the lifecycle flag (R29). -/
  fin : Bool
  /-- `ERRCODE`, the sticky error code (R30). -/
  errcode : ErrCode
  /-- `DG[0..31]`, the Digest register (R31). -/
  dg : Digest
  /-- GHOST: some command raised an error since reset (U13, notes/assumptions/9.md). No rule reads
  it. -/
  erred : Bool
  /-- HOST: what the host drives at the edges to come, the next edge first; past its end the host
  drives `rst = 0`, `cmd_valid = 0`. DESIGN CHOICE (notes/assumptions/2.md). -/
  pins : List Pins
  /-- HOST: the word the host has presented and the engine has not yet accepted (R234). -/
  held : Option CmdWord
  /-- IMPLEMENTATION: at how many edges from here on `cmd_ready` is 0 (R73); `cmd_ready` is 1 when it
  is 0. -/
  busy : Nat
  /-- IMPLEMENTATION: for the commands and resets to come, in order, at how many edges each keeps
  `cmd_ready` at 0 (R239: any finite number); past its end 0. (notes/assumptions/2.md, 6.md, 7.md.) -/
  latency : List Nat
  /-- MODEL: the counter of the free values of `Config` (U4, notes/assumptions/3.md). -/
  freeCount : Nat
  deriving DecidableEq, Repr

/-- `DG` after INIT or reset: 32 bytes of 0x00 (R31). -/
def zeroDigest : Digest := ⟨⟨List.replicate 32 0⟩, rfl⟩

/-- The engine right after reset, `cmd_ready = 1` (R230, R233). `BUF` is unspecified there: nothing is
listed (notes/assumptions/1.md). The port's fields: notes/assumptions/2.md. -/
def State.reset : State where
  h := h0Rom
  buf := []
  buflen := 0
  tbl := 0
  fin := false
  errcode := .none
  dg := zeroDigest
  erred := false
  pins := []
  held := none
  busy := 0
  latency := []
  freeCount := 0

end Sys2Proof.Machine
end

