-- ==== Sys2Proof/Machine/Flags.lean ====
section
/-! DEFINITION. The flags of the engine: `ERRCODE`'s codes (spec/10_state.md R30, spec/60_exceptions.md
R200) and the read-only `STATUS` view (R32). Arithmetic sets no flag (R108). -/

namespace Sys2Proof.Machine

/-- The errors the engine can report (R200). -/
inductive EngineError where
  | illegalCommand
  | misuse
  | inputTooLarge
  deriving DecidableEq, Repr

/-- `code(E)` of R201: what an error writes to `ERRCODE` (R200). -/
def EngineError.code : EngineError → ErrCode
  | .illegalCommand => .illegalCommand
  | .misuse => .misuse
  | .inputTooLarge => .inputTooLarge

/-- The two bits of `ERRCODE` (R30). -/
def ErrCode.bits : ErrCode → BitVec 2
  | .none => 0
  | .illegalCommand => 1
  | .misuse => 2
  | .inputTooLarge => 3

/-- The bit of `FIN` (R29). -/
def finBit (fin : Bool) : BitVec 1 := BitVec.ofBool fin

/-- `STATUS = zext_16(BUFLEN) | (FIN << 6) | (ERRCODE << 8)` (R32). It stores nothing of its own. -/
def status (s : State) : BitVec 16 :=
  s.buflen.setWidth 16 ||| (finBit s.fin).setWidth 16 <<< 6 ||| s.errcode.bits.setWidth 16 <<< 8

/-- The error lock: `ERRCODE ≠ NONE` (R202). -/
def locked (s : State) : Bool := s.errcode != .none

end Sys2Proof.Machine
end

