-- ==== Sys2Proof/Machine/Operands.lean ====
section
/-! DEFINITION. Operands (spec/30_encoding.md R76). The only operand of any command is UPDATE's `DATA`
byte; no command has an immediate, a register operand or an address. -/

namespace Sys2Proof.Machine

/-- The message byte an UPDATE's `DATA` field stands for: the byte itself, with no extension, scaling,
shift or inversion (R76). -/
def messageByte (data : Byte) : Byte := data

/-- The length check of UPDATE as an exact integer comparison (R143, R205): the message with one more
byte would reach 2^64 bits. -/
def tooLarge (s : State) : Bool := decide (2 ^ 64 ≤ s.tbl.toNat + 8 * (s.buflen.toNat + 1))

end Sys2Proof.Machine
end

