-- ==== Sys2Proof/Machine/Ops.lean ====
section
/-! DEFINITION. The shared operations: reading and writing `BUF` (spec/00_scope.md R13), recording an
error (spec/60_exceptions.md R201), and loading the initial context (spec/41_context_commands.md R142).
The engine has no trap entry and no return from one (R209, R210): `raise` is all an error does. -/

namespace Sys2Proof.Machine

/-- The canonical form of `BUF`: indices strictly rising, all in 0..63 (R50), no entry equal to what an
unlisted index reads as. -/
def Memory.wf (m : Memory) : Bool :=
  decide (m.Pairwise fun c d => c.1 < d.1) &&
    m.all fun c => decide (c.1 < Config.blockBytes) && c.2 != Config.unlistedByte

/-- `BUF[a]`. -/
def Memory.read : Memory → Nat → Byte
  | [], _ => Config.unlistedByte
  | c :: m, a => if c.1 = a then c.2 else Memory.read m a

/-- Put an entry at its place in the rising order. -/
def Memory.insert (c : Host.Cell) : Memory → Memory
  | [] => [c]
  | d :: m => if c.1 < d.1 then c :: d :: m else d :: Memory.insert c m

/-- `BUF[a] <- b`: the old entry goes, and the new one is listed unless an unlisted index reads as `b`. -/
def Memory.write (m : Memory) (a : Nat) (b : Byte) : Memory :=
  let rest := m.filter fun c => c.1 != a
  if b = Config.unlistedByte then rest else Memory.insert (a, b) rest

/-- `[BUF[i], ..., BUF[i+n-1]]`. -/
def Memory.readBytes (m : Memory) (i n : Nat) : List Byte :=
  (List.range' i n).map m.read

/-- `BUF[i] <- b0, BUF[i+1] <- b1, ...`. -/
def Memory.writeBytes (m : Memory) (i : Nat) : List Byte → Memory
  | [] => m
  | b :: bs => (m.write i b).writeBytes (i + 1) bs

/-- `MemRead(i, n)`, within the bound `i + n ≤ 64` (R13). -/
def memRead (m : Memory) (i n : Nat) : Except Fault (List Byte) :=
  if i + n ≤ Config.blockBytes then .ok (m.readBytes i n) else .error (.bufIndex i n)

/-- Store a byte sequence from index `i` on, within the bound `i + n ≤ 64` (R13). `MemWrite(i, n, v)` is
`memWrite m i (bytesBE v n)`. -/
def memWrite (m : Memory) (i : Nat) (bs : List Byte) : Except Fault Memory :=
  if i + bs.length ≤ Config.blockBytes then .ok (m.writeBytes i bs)
  else .error (.bufIndex i bs.length)

/-- `for k in i..j: BUF[k] <- 0x00` (R13, R172, R173): no byte when `j < i`. -/
def memZero (m : Memory) (i j : Nat) : Except Fault Memory :=
  memWrite m i (List.replicate (j + 1 - i) 0)

/-- `raise E` (R201): the first error is kept, nothing else of the engine changes. The ghost flag
records that an error was raised (U13). -/
def raise (e : EngineError) (s : State) : State :=
  { s with errcode := if s.errcode = .none then e.code else s.errcode, erred := true }

/-- `InitCmd()` (R142): the initial context. `BUF` is not written. -/
def loadInitial (s : State) : State :=
  { s with h := h0Rom, buflen := 0, tbl := 0, fin := false, errcode := .none, dg := zeroDigest }

/-- The end of a command's work on the state. -/
def finish : Except Fault State → Host.Outcome State Fault Refusal
  | .ok s => .next s
  | .error f => .fault f

end Sys2Proof.Machine
end

