-- ==== Sys2Proof/Machine/Context.lean ====
section
/-! DEFINITION. The context commands NOP, INIT and UPDATE (spec/41_context_commands.md R141 to R144). -/

namespace Sys2Proof.Machine

/-- NOP (R141): no state change, in every state. -/
def execNop (s : State) : Host.Outcome State Fault Refusal := .next s

/-- INIT (R142): the initial context, in every state. -/
def execInit (s : State) : Host.Outcome State Fault Refusal := .next (loadInitial s)

/-- The block trigger (R144), in the state where `BUF[0..63]` holds 64 message bytes. -/
def blockTrigger (s : State) : Except Fault State := do
  let blk ← memRead s.buf 0 64
  pure { s with h := compress s.h blk, tbl := s.tbl + 512, buflen := 0 }

/-- UPDATE past its checks (R143): the byte goes to `BUF[BUFLEN]`, and the 64th of a block starts the
trigger. -/
def absorb (b : Byte) (s : State) : Except Fault State := do
  let buf ← memWrite s.buf s.buflen.toNat [b]
  if s.buflen = 63 then blockTrigger { s with buf := buf }
  else pure { s with buf := buf, buflen := s.buflen + 1 }

/-- UPDATE b (R143), its checks in the order of R208. -/
def execUpdate (data : Byte) (s : State) : Host.Outcome State Fault Refusal :=
  if locked s then .next s
  else if s.fin then .next (raise .misuse s)
  else if tooLarge s then .next (raise .inputTooLarge s)
  else finish (absorb (messageByte data) s)

end Sys2Proof.Machine
end

