-- ==== Sys2Proof/Machine/Finalize.lean ====
section
/-! DEFINITION. FINALIZE: padding, length field and serializer (spec/42_finalize.md R170 to R178). -/

namespace Sys2Proof.Machine

/-- `H <- compress(H, MemRead(0, 64))` (R173, R176). -/
def compressBuf (s : State) : Except Fault State := do
  let blk ← memRead s.buf 0 64
  pure { s with h := compress s.h blk }

/-- The padding up to the length field, with `n` the fill count (R171 to R173). -/
def padTail (n : Nat) (s : State) : Except Fault State := do
  let marked ← memWrite s.buf n [0x80]
  if n < Config.lenFieldOffset then
    let padded ← memZero marked (n + 1) 55
    pure { s with buf := padded }
  else
    let filled ← memZero marked (n + 1) 63
    let s' ← compressBuf { s with buf := filled }
    let cleared ← memZero s'.buf 0 55
    pure { s' with buf := cleared }

/-- `L = TBL + 8n`, the message length in bits (R174). It is below 2^64 in every reachable state (R206);
elsewhere the 64-bit sum wraps (notes/assumptions/5.md). -/
def messageBits (s : State) : BitLength := s.tbl + BitVec.ofNat 64 (8 * s.buflen.toNat)

/-- FINALIZE past its checks (R170 to R178). -/
def finalizeContext (s : State) : Except Fault State := do
  let n := s.buflen.toNat
  let len := messageBits s
  let padded ← padTail n s
  let block ← memWrite padded.buf Config.lenFieldOffset (bytesBE len 8)
  let done ← compressBuf { padded with buf := block }
  pure { done with dg := serialize done.h, fin := true, buflen := 0, tbl := len }

/-- FINALIZE (R170), its checks in the order of R208. -/
def execFinalize (s : State) : Host.Outcome State Fault Refusal :=
  if locked s then .next s
  else if s.fin then .next (raise .misuse s)
  else finish (finalizeContext s)

end Sys2Proof.Machine
end

