-- ==== Sys2Proof/Machine/Dispatch.lean ====
section
/-! DEFINITION. The dispatch of a legal command to its meaning (spec/41_context_commands.md R140). -/

namespace Sys2Proof.Machine

def exec (i : Instr) (s : State) : Host.Outcome State Fault Refusal :=
  match i with
  | .nop => Sys2Proof.Machine.execNop s
  | .init => Sys2Proof.Machine.execInit s
  | .update data => Sys2Proof.Machine.execUpdate data s
  | .finalize => Sys2Proof.Machine.execFinalize s

end Sys2Proof.Machine
end

