-- ==== Sys2Proof/Machine/Execute.lean ====
section
/-! DEFINITION. `Execute(cmd)`, the architectural step for one accepted command word
(spec/41_context_commands.md R140), and its fold over a command sequence (spec/20_memory.md R59). -/

namespace Sys2Proof.Machine

/-- An accepted word that decodes to no command (R203): ILLEGAL_COMMAND, whatever the state and
whatever the group of R79. -/
def execIllegal (s : State) : Host.Outcome State Fault Refusal := .next (raise .illegalCommand s)

/-- `Execute(cmd)` (R140). -/
def execute (w : CmdWord) (s : State) : Host.Outcome State Fault Refusal :=
  match decode w with
  | .ok i => exec i s
  | .error _ => execIllegal s

/-- The sequential effect of a command sequence: the fold of `Execute` over it (R59). -/
def executeAll : List CmdWord → State → Host.Outcome State Fault Refusal
  | [], s => .next s
  | w :: ws, s =>
    match execute w s with
    | .next t => executeAll ws t
    | .fault f => .fault f
    | .refused r => .refused r

end Sys2Proof.Machine
end

