-- ==== Sys2Proof/Machine/Port.lean ====
section
/-! DEFINITION. The host port (spec/30_encoding.md R71 to R75, R82; spec/70_reset_and_hazards.md R230 to
R239): what one rising edge of `clk` does with the pins the host drives there, and what the output ports
show. -/

namespace Sys2Proof.Machine

/-- What a host that presents nothing drives. -/
def Pins.idle : Pins := ⟨false, false, 0⟩

/-- What a host that presents the word `w` drives. -/
def Pins.present (w : CmdWord) : Pins := ⟨false, true, w⟩

/-- What a host that asserts reset and presents nothing drives. -/
def Pins.reset : Pins := ⟨true, false, 0⟩

/-- The word the pins present, if any. -/
def Pins.word (p : Pins) : Option CmdWord := if p.cmdValid then some p.cmd else none

/-- `cmd_ready` (R71, R73). -/
def cmdReady (s : State) : Bool := s.busy == 0

/-- The host keeps the command-stability rule at this edge (R234): a word presented and not yet accepted
is still presented, unchanged. -/
def Pins.stable (held : Option CmdWord) (p : Pins) : Bool :=
  match held with
  | none => true
  | some w => p.cmdValid && p.cmd == w

/-- The pins of the next edge. -/
def nextPins (s : State) : Pins := s.pins.headD .idle

/-- The state with the next edge's pins taken off. -/
def takePins (s : State) : State := { s with pins := s.pins.tail }

/-- The engine starts work that keeps `cmd_ready` at 0 for the finite number of edges that comes next
(R73, R239). -/
def startBusy (s : State) : State := { s with busy := s.latency.headD 0, latency := s.latency.tail }

/-- An edge with `rst = 1` (R230, R237): the reset state, whatever was executing. `BUF` is unspecified
after it and nothing of it is kept (notes/assumptions/1.md). A word presented at the edge is not
accepted; the host holds it from here on (notes/assumptions/4.md). -/
def resetEdge (p : Pins) (s : State) : State :=
  startBusy { loadInitial (takePins s) with
    buf := [], erred := false, held := p.word, freeCount := s.freeCount + 1 }

/-- An edge with `cmd_ready = 0` (R73): no word is accepted; one that is presented is held (R234). -/
def busyEdge (p : Pins) (s : State) : State :=
  { takePins s with held := p.word, busy := s.busy - 1, freeCount := s.freeCount + 1 }

/-- The state in which an accepted word executes: its pins are taken, and no word is held. -/
def acceptState (s : State) : State := { takePins s with held := none }

/-- An edge that accepts the word `w` (R73): its whole effect, then `cmd_ready` stays 0 for a finite
number of edges. The engine commits at acceptance; nothing can tell (notes/assumptions/2.md). -/
def acceptEdge (w : CmdWord) (s : State) : Host.Outcome State Fault Refusal :=
  match execute w (acceptState s) with
  | .next t => .next (startBusy t)
  | .fault f => .fault f
  | .refused r => .refused r

/-- One rising edge of `clk` with the pins `p`. -/
def clockEdge (p : Pins) (s : State) : Host.Outcome State Fault Refusal :=
  if p.rst then .next (resetEdge p s)
  else if !p.stable s.held then .refused .unstableCommand
  else if !cmdReady s then .next (busyEdge p s)
  else if p.cmdValid then acceptEdge p.cmd s
  else .next (takePins s)

/-- `digest[255-8k : 248-8k] = DG[k]` (R74): the digest as one big-endian number. -/
def digestValue (d : Digest) : BitVec 256 :=
  d.toList.foldl (fun acc b => acc <<< 8 ||| b.setWidth 256) 0

/-- The `status` port (R75): `STATUS`, but a free value while `cmd_ready = 0` (R235, U4). -/
def statusPort (s : State) : BitVec 16 :=
  if cmdReady s then status s else Config.busyStatus s.freeCount

/-- The `digest` port (R74, R75): `DG`, but a free value while `cmd_ready = 0` (R235, U4). -/
def digestPort (s : State) : BitVec 256 :=
  if cmdReady s then digestValue s.dg else Config.busyDigest s.freeCount

/-- The host presents the words in order, each at the first edge where the engine can accept it. -/
def State.withCommands (s : State) (ws : List CmdWord) : State :=
  { s with pins := ws.map .present ++ s.pins }

end Sys2Proof.Machine
end

