-- ==== Sys2Proof/Machine/Step.lean ====
section
/-! DEFINITION. One step: the next rising edge of `clk` with what the host drives there. The engine
fetches nothing (spec/10_state.md R22): its next command is the word on the command port. -/

namespace Sys2Proof.Machine

def step (s : State) : Host.Outcome State Fault Refusal := clockEdge (nextPins s) s

/-- The state with a command word put on the command port: the host presents it at the very next edge,
`cmd_ready` is 1 there, and no other word is held. -/
def State.withFetchWord (s : State) (nbits w : Nat) : State :=
  { s with pins := .present (tableWord nbits w) :: s.pins, held := none, busy := 0 }

end Sys2Proof.Machine
end

