-- ==== Sys2Proof/Machine/Assembler.lean ====
section
/-! DEFINITION. The assembler's syntax and pseudo-commands (spec/30_encoding.md R80, R81): a line of text
to an `AsmLine`, and an `AsmLine` to its command words. No command's meaning uses this file. DESIGN
CHOICE where R80 leaves the text's grammar open (notes/assumptions/8.md). -/

namespace Sys2Proof.Machine

/-- The byte an operand stands for; a character stands for its ASCII code (R80). -/
def asmByte : AsmByte → Byte
  | .number n => BitVec.ofNat 8 n
  | .char c => BitVec.ofNat 8 c.toNat

/-- `UPDATE b` as a command word. -/
def updateWord (b : AsmByte) : CmdWord := encode (.update (asmByte b))

/-- The command words of a well-formed line (R80, R81): a pseudo-command expands to its commands. -/
def asmWords : AsmLine → List CmdWord
  | .nop => [encode .nop]
  | .init => [encode .init]
  | .finalize => [encode .finalize]
  | .update b => [updateWord b]
  | .word n => [BitVec.ofNat 16 n]
  | .updateBytes bs => bs.map updateWord
  | .updateStr text => text.map fun c => updateWord (.char c)
  | .hash bs => encode .init :: bs.map updateWord ++ [encode .finalize]

/-- The command words of a line, none if an operand is out of its range (R80). -/
def assemble (l : AsmLine) : Option (List CmdWord) := if l.wf then some (asmWords l) else none

/-- The value of a digit in base 10 or 16. -/
def digit (base : Nat) (c : Char) : Option Nat :=
  let n := c.toNat
  let v := if 48 ≤ n ∧ n ≤ 57 then n - 48
    else if 97 ≤ n ∧ n ≤ 102 then n - 87
    else if 65 ≤ n ∧ n ≤ 70 then n - 55
    else 16
  if v < base then some v else none

/-- A run of digits to its value, most significant first. -/
def digitsValue (base acc : Nat) : List Char → Option Nat
  | [] => some acc
  | c :: cs =>
    match digit base c with
    | some v => digitsValue base (acc * base + v) cs
    | none => none

/-- A number, decimal or `0x` hexadecimal (R80). -/
def parseNumber : List Char → Option Nat
  | [] => none
  | '0' :: 'x' :: c :: cs => digitsValue 16 0 (c :: cs)
  | c :: cs => digitsValue 10 0 (c :: cs)

/-- A byte operand: a number or `'c'` (R80). -/
def parseByte : List Char → Option AsmByte
  | ['\'', c, '\''] => some (.char c)
  | cs => (parseNumber cs).map .number

/-- Spaces and tabs. -/
def isBlank (c : Char) : Bool := c == ' ' || c == '\t'

/-- The text with no blanks at either end. -/
def trim (cs : List Char) : List Char := ((cs.dropWhile isBlank).reverse.dropWhile isBlank).reverse

/-- Cut the text at its commas, a comma between apostrophes being a character literal. `cur` is the part
read so far, last character first. -/
def splitCommas (cur : List Char) : List Char → List (List Char)
  | [] => [cur.reverse]
  | '\'' :: c :: '\'' :: cs => splitCommas ('\'' :: c :: '\'' :: cur) cs
  | ',' :: cs => cur.reverse :: splitCommas [] cs
  | c :: cs => splitCommas (c :: cur) cs

/-- `b0, ..., b(k-1)`; no text is no byte (R81). -/
def parseBytes (cs : List Char) : Option (List AsmByte) :=
  if trim cs = [] then some [] else (splitCommas [] cs).mapM fun part => parseByte (trim part)

/-- `"text"` (R81). -/
def parseText (cs : List Char) : Option (List Char) :=
  match cs, cs.getLast? with
  | '"' :: rest, some '"' => if rest = [] then none else some rest.dropLast
  | _, _ => none

/-- An operand that must not be there. -/
def noOperand (l : AsmLine) (operands : List Char) : Option AsmLine :=
  if operands = [] then some l else none

/-- One line of assembler text (R80, R81): a mnemonic in any case, then its operands. -/
def parseLine (line : List Char) : Option AsmLine :=
  let cs := trim line
  let name := (cs.takeWhile fun c => !isBlank c).map Char.toUpper
  let operands := trim (cs.dropWhile fun c => !isBlank c)
  if name = ['N', 'O', 'P'] then noOperand .nop operands
  else if name = ['I', 'N', 'I', 'T'] then noOperand .init operands
  else if name = ['F', 'I', 'N', 'A', 'L', 'I', 'Z', 'E'] then noOperand .finalize operands
  else if name = ['U', 'P', 'D', 'A', 'T', 'E'] then (parseByte operands).map .update
  else if name = ['.', 'W', 'O', 'R', 'D'] then (parseNumber operands).map .word
  else if name = ['U', 'P', 'D', 'A', 'T', 'E', '_', 'B', 'Y', 'T', 'E', 'S'] then
    (parseBytes operands).map .updateBytes
  else if name = ['U', 'P', 'D', 'A', 'T', 'E', '_', 'S', 'T', 'R'] then
    (parseText operands).map .updateStr
  else if name = ['H', 'A', 'S', 'H'] then (parseBytes operands).map .hash
  else none

/-- The command words of one line of assembler text. -/
def assembleLine (line : List Char) : Option (List CmdWord) := (parseLine line).bind assemble

/-- The command words of a program, one command per line (R80). -/
def assembleProgram (lines : List (List Char)) : Option (List CmdWord) :=
  (lines.mapM assembleLine).map List.flatten

end Sys2Proof.Machine
end

