-- ==== Sys2Proof/Machine/Message.lean ====
section
/-! DEFINITION. The message a command sequence absorbs (spec/10_state.md R35) and its SHA-256 digest as
the spec says it without the engine's buffer: pad, cut into blocks, compress in order
(spec/42_finalize.md R180). No command's meaning uses this file; claims do. -/

namespace Sys2Proof.Machine

/-- An UPDATE executes normally: no check of R208 stops it. -/
def updateAccepted (s : State) : Bool := !locked s && !s.fin && !tooLarge s

/-- A FINALIZE executes normally. -/
def finalizeAccepted (s : State) : Bool := !locked s && !s.fin

/-- The message after the word `w` is executed in `s`, with `m` the message before (R35): INIT starts a
new one, an UPDATE that succeeds appends its byte. -/
def messageAfter (w : CmdWord) (s : State) (m : List Byte) : List Byte :=
  match decode w with
  | .ok .init => []
  | .ok (.update b) => if updateAccepted s then m ++ [b] else m
  | .ok .nop => m
  | .ok .finalize => m
  | .error _ => m

/-- The message after a command sequence (R35, R241). -/
def messageOf : List CmdWord → State → List Byte → List Byte
  | [], _, m => m
  | w :: ws, s, m =>
    match execute w s with
    | .next t => messageOf ws t (messageAfter w s m)
    | .fault _ => m
    | .refused _ => m

/-- The first `n` 64-byte blocks of a byte sequence. -/
def takeBlocks : Nat → List Byte → List (List Byte)
  | 0, _ => []
  | n + 1, l => l.take 64 :: takeBlocks n (l.drop 64)

/-- The complete 64-byte blocks of a byte sequence, in order. -/
def cutBlocks (l : List Byte) : List (List Byte) := takeBlocks (l.length / 64) l

/-- The compression of blocks in order, from `H0` (R35). -/
def hashBlocks (bs : List (List Byte)) : HashState := bs.foldl compress h0Rom

/-- The number `z` of zero bytes in the padding, `(55 - |M|) mod 64` (R180). -/
def zeroCount (len : Nat) : Nat := (119 - len % 64) % 64

/-- The padded message (R180). -/
def padMessage (m : List Byte) : List Byte :=
  m ++ [0x80] ++ List.replicate (zeroCount m.length) 0 ++ bytesBE (BitVec.ofNat 64 (8 * m.length)) 8

/-- The SHA-256 digest of a message, from the padded message's blocks (R180, R177). -/
def sha256 (m : List Byte) : Digest := serialize (hashBlocks (cutBlocks (padMessage m)))

/-- The byte at index `k` of the length field, 56 ≤ k ≤ 63, most significant byte first (R54, R175). -/
def lengthByte (len : BitLength) (k : Nat) : Byte := len.extractLsb' (8 * (63 - k)) 8

/-- The layout of `BUF` when it holds the last block of a FINALIZE that starts with `n < 56` (R52): the
tail, the marker, zeros, the length. -/
def oneBlockByte (tail : Nat → Byte) (n : Nat) (len : BitLength) (k : Nat) : Byte :=
  if k < n then tail k else if k = n then 0x80 else if k < 56 then 0 else lengthByte len k

/-- The first of two blocks, `n ≥ 56` (R52): the tail, the marker, zeros. -/
def firstBlockByte (tail : Nat → Byte) (n k : Nat) : Byte :=
  if k < n then tail k else if k = n then 0x80 else 0

/-- The second of two blocks (R52): zeros, the length. -/
def secondBlockByte (len : BitLength) (k : Nat) : Byte := if k < 56 then 0 else lengthByte len k

/-- The 64 bytes of a block given by index. -/
def blockOf (byteAt : Nat → Byte) : List Byte := (List.range 64).map byteAt

/-- The three facts of R35, for the message `m`. -/
structure Accounts (m : List Byte) (s : State) : Prop where
  tbl : s.tbl.toNat = 512 * (m.length / 64)
  buflen : s.buflen.toNat = m.length % 64
  tail : s.buf.readBytes 0 s.buflen.toNat = m.drop (m.length - s.buflen.toNat)
  hash : s.h = hashBlocks (cutBlocks m)

end Sys2Proof.Machine
end

