-- ==== Sys2Proof/Safety.lean ====
section
/-! DEFINITION. What claims are stated in: the invariant of the engine's states, and a run, its
observation and what it has hashed (spec/70_reset_and_hazards.md R241). -/

namespace Sys2Proof.Machine

/-- The invariant that every step keeps. -/
structure Inv (s : State) : Prop where
  /-- `BUF` is in canonical form, with no index outside 0..63 (R50). -/
  bufWf : s.buf.wf = true
  /-- Whenever `FIN = 1`, `DG` is the serialization of `H` (R36). -/
  digestFinal : s.fin = true → s.dg = serialize s.h
  /-- After a FINALIZE the fill count is 0 (R178). -/
  countFinal : s.fin = true → s.buflen = 0
  /-- Whenever `FIN = 0`, `DG` is 32 bytes of 0x00 (R36). -/
  digestActive : s.fin = false → s.dg = zeroDigest
  /-- `TBL` is a multiple of 512 while `FIN = 0` (R28). -/
  tblActive : s.fin = false → s.tbl.toNat % 512 = 0
  /-- No length sum reaches 2^64 (R174, R206). -/
  lengthFits : s.tbl.toNat + 8 * s.buflen.toNat < 2 ^ 64
  /-- An error that is recorded was raised since reset (U13). -/
  errorSeen : s.errcode ≠ .none → s.erred = true

/-- The observation of a run: `STATUS` and `DG` (R241). -/
structure Observation where
  status : BitVec 16
  dg : Digest
  deriving DecidableEq, Repr

/-- What a state shows at the end of a run (R241). -/
def observe (s : State) : Observation := ⟨status s, s.dg⟩

/-- The run of the words `ws` ends in `t` (R241): the words take effect in order, from reset. -/
def RunEnds (ws : List CmdWord) (t : State) : Prop := executeAll ws .reset = .next t

/-- The run of the words `ws` ends in `t` and has hashed `m` (R241, R35). -/
def RunHashed (ws : List CmdWord) (m : List Byte) (t : State) : Prop :=
  RunEnds ws t ∧ t.errcode = .none ∧ t.fin = true ∧ m = messageOf ws .reset []

/-- A safe run, in the sense of U13: no command of it raised an error. -/
def RunSafe (ws : List CmdWord) (t : State) : Prop := RunEnds ws t ∧ t.erred = false

/-- Two states of one engine: they agree in everything but the port's fields, which are not
architectural (R20). -/
def SameEngine (s t : State) : Prop :=
  { s with pins := t.pins, held := t.held, busy := t.busy, latency := t.latency,
           freeCount := t.freeCount } = t

/-- The next edge accepts the word `w` (R73). -/
def Accepts (s : State) (w : CmdWord) : Prop :=
  (nextPins s).rst = false ∧ s.busy = 0 ∧ (nextPins s).word = some w

/-- The message after the next edge, with `m` the message before (R35): reset starts a new one, an accepted
word does what `messageAfter` says, and no other edge changes it. -/
def messageAfterStep (s : State) (m : List Byte) : List Byte :=
  if (nextPins s).rst then []
  else if cmdReady s then
    match (nextPins s).word with
    | some w => messageAfter w s m
    | none => m
  else m

/-- The engine's state fits the message `m` absorbed since the last INIT or reset (R35, R36). -/
structure TracksMessage (m : List Byte) (s : State) : Prop where
  /-- While `FIN = 0`, the three facts of R35. -/
  active : s.fin = false → Accounts m s
  /-- While `FIN = 1`, `DG` is the digest of the message (R36). -/
  final : s.fin = true → s.dg = sha256 m

/-- The host keeps R234 at the edges `ps`, none of which accepts a word, with `held` presented before. -/
def HostKeeps : Option CmdWord → List Pins → Prop
  | _, [] => True
  | held, p :: ps => p.rst = false ∧ p.stable held = true ∧ HostKeeps p.word ps

/-- Two states the host cannot tell apart and no later command can make differ: they agree in everything
but the bytes `BUF[BUFLEN..63]`, which hold no defined value (R26). -/
structure AgreeUpToStale (s t : State) : Prop where
  rest : { s with buf := t.buf } = t
  filled : ∀ a, a < s.buflen.toNat → s.buf.read a = t.buf.read a

end Sys2Proof.Machine
end

