-- ==== Sys2Proof/Certificates/Slice0/Obligations.lean ====
section
/-! DEFINITION. The statements about the engine. Each docstring names the rule of spec/ it formalises. -/

open Sys2Proof Sys2Proof.Machine

/-! ## Encoding and decoding -/

/-- R72: the fields of a command word are `cmd[15:12]`, `cmd[11:8]` and `cmd[7:0]`, they make up the whole
word; a legal word has `RSV = 0`, and `DATA` is the message byte of an UPDATE and 0 otherwise. -/
def Obligations.CommandWordFields : Prop :=
  (∀ w : CmdWord, (CmdFields.ofWord w).op = w.extractLsb 15 12 ∧
    (CmdFields.ofWord w).rsv = w.extractLsb 11 8 ∧ (CmdFields.ofWord w).data = w.extractLsb 7 0 ∧
    (CmdFields.ofWord w).toWord = w) ∧
  (∀ f : CmdFields, CmdFields.ofWord f.toWord = f) ∧
  ∀ (w : CmdWord) (i : Instr), decode w = .ok i →
    (CmdFields.ofWord w).rsv = 0 ∧ (∀ b, i = .update b → (CmdFields.ofWord w).data = b) ∧
      ((∀ b, i ≠ .update b) → (CmdFields.ofWord w).data = 0)

/-- R77: the opcode map has these four rows, a word is legal when exactly one of them matches, and there
are 259 legal words: 3 single words and the 256 UPDATE words. -/
def Obligations.LegalWordsMatchOneRow : Prop :=
  opcodeMap = [⟨.nop, 0x0000, 0xFFFF⟩, ⟨.init, 0x1000, 0xFFFF⟩, ⟨.update, 0x2000, 0xFF00⟩,
    ⟨.finalize, 0x3000, 0xFFFF⟩] ∧
  (∀ w : CmdWord, (∃ i, decode w = .ok i) ↔ (opcodeMap.filter (·.matches w)).length = 1) ∧
  (∀ (w : CmdWord) (r : OpcodeRow), r ∈ opcodeMap → w &&& r.mask = r.pattern →
    decode w = .ok (r.op.toInstr (w.extractLsb 7 0))) ∧
  ∃ legal : List CmdWord, legal.Nodup ∧ legal.length = 259 ∧
    (∀ w, w ∈ legal ↔ ∃ i, decode w = .ok i) ∧
    (legal.filter fun w => w.extractLsb 15 8 = 0x20).length = 256

/-- R78: the decode function, total over all 2^16 words, written out as the rule writes it: its last branch
is ILLEGAL, whatever reason the model gives. -/
def Obligations.DecodeFollowsItsPseudocode : Prop :=
  ∀ w : CmdWord,
    if w = 0x0000 then decode w = .ok .nop
    else if w = 0x1000 then decode w = .ok .init
    else if w.extractLsb 15 8 = 0x20 then decode w = .ok (.update (w.extractLsb 7 0))
    else if w = 0x3000 then decode w = .ok .finalize
    else ∃ e, decode w = .error e

/-- R79, R203: which words are illegal, and that accepting one raises ILLEGAL_COMMAND in every state, with
no other effect, even if its `OP` field is a legal opcode's. -/
def Obligations.IllegalEncodings : Prop :=
  ∀ w : CmdWord,
    ((∃ e, decode w = .error e) ↔
      4 ≤ (w.extractLsb 15 12).toNat ∨ w.extractLsb 11 8 ≠ 0 ∨
        ((w.extractLsb 15 12 = 0 ∨ w.extractLsb 15 12 = 1 ∨ w.extractLsb 15 12 = 3) ∧
          w.extractLsb 7 0 ≠ 0)) ∧
    ∀ (e : Illegal) (s : State), decode w = .error e →
      ∃ t, execute w s = .next t ∧ (s.errcode = .none → t.errcode = .illegalCommand) ∧
        (s.errcode ≠ .none → t.errcode = s.errcode) ∧
        t = { s with errcode := t.errcode, erred := true }

/-- Decoding and encoding agree, both ways: a word decodes to a well-formed command exactly when it is
that command's word. -/
def Obligations.DecodeEncodeAgree : Prop :=
  ∀ (i : Instr) (w : CmdWord), i.wf = true → (decode w = .ok i ↔ w = encode i)

/-- Words written out from R77 and R72 decode to the command they stand for, and their neighbours are
illegal, as spec/95_test_vectors.md V80 says. Which reason the decoder gives for an illegal word (the first
of R79's groups that it falls in) is the model's choice, notes/assumptions/13.md: neither R79 nor V80 gives
one. -/
def Obligations.WrittenOutWordsDecode : Prop :=
  (∀ (w : CmdWord) (e : Illegal), decode w = .error e →
    e = if 4 ≤ (w.extractLsb 15 12).toNat then .opcode else if w.extractLsb 11 8 ≠ 0 then .reserved else .data) ∧
  decode 0b0000000000000000 = .ok .nop ∧ decode 0b0001000000000000 = .ok .init ∧
  decode 0b0010000010000000 = .ok (.update 0x80) ∧ decode 0b0010000011111111 = .ok (.update 0xff) ∧
  decode 0b0011000000000000 = .ok .finalize ∧ decode 0b0000000000000001 = .error .data ∧
  decode 0b0000000100000000 = .error .reserved ∧ decode 0b0001000011111111 = .error .data ∧
  decode 0b0010111110000000 = .error .reserved ∧ decode 0b0011000000000001 = .error .data ∧
  decode 0b0100000000000000 = .error .opcode ∧ decode 0b1111111111111111 = .error .opcode

/-- R80, the operands: `UPDATE` takes a number from 0 to 255 or a character's ASCII code, `.word` any
16-bit word, and no line with an operand out of range assembles. -/
def Obligations.AssemblerOperands : Prop :=
  (∀ n, assemble (.update (.number n)) =
    if n < 256 then some [0x2000 ||| BitVec.ofNat 16 n] else none) ∧
  (∀ c : Char, assemble (.update (.char c)) =
    if c.toNat < 128 then some [0x2000 ||| BitVec.ofNat 16 c.toNat] else none) ∧
  (∀ n, assemble (.word n) = if n < 65536 then some [BitVec.ofNat 16 n] else none) ∧
  assemble .nop = some [0x0000] ∧ assemble .init = some [0x1000] ∧
  assemble .finalize = some [0x3000] ∧
  ∀ l ws, assemble l = some ws → l.wf = true ∧ ws = asmWords l

/-- R81: what each pseudo-command expands to. -/
def Obligations.PseudoCommandsExpand : Prop :=
  (∀ bs : List AsmByte, asmWords (.updateBytes bs) = (bs.map fun b => asmWords (.update b)).flatten) ∧
  asmWords (.updateBytes []) = [] ∧
  (∀ text : List Char, asmWords (.updateStr text) = asmWords (.updateBytes (text.map .char))) ∧
  ∀ bs : List AsmByte, asmWords (.hash bs) =
    asmWords .init ++ asmWords (.updateBytes bs) ++ asmWords .finalize

/-! ## The compressor -/

/-- R100: `rotr` is its formula, turns the word in a circle, and keeps all zeros and all ones. -/
def Obligations.RotateIsCircular : Prop :=
  (∀ (x : Word) (n : Nat), 1 ≤ n → n ≤ 31 →
    rotr x n = x >>> n ||| x <<< (32 - n) ∧
    ∀ i, i < 32 → (rotr x n).getLsbD i = x.getLsbD ((i + n) % 32)) ∧
  (∀ n, n ∈ [2, 6, 7, 11, 13, 17, 18, 19, 22, 25] → 1 ≤ n ∧ n ≤ 31) ∧
  (∀ n, 1 ≤ n → n ≤ 31 → rotr 0 n = 0 ∧ rotr 0xFFFFFFFF n = 0xFFFFFFFF) ∧
  rotr 0x12345678 7 = 0xf02468ac

/-- R101 to R103: the logical right shift, choose, and majority, with their corner cases. -/
def Obligations.ShiftChooseMajority : Prop :=
  (∀ (x : Word) (n : Nat), (x >>> n).toNat = x.toNat / 2 ^ n) ∧
  (0x80000000 : Word) >>> 3 = 0x10000000 ∧ (0xFFFFFFFF : Word) >>> 10 = 0x003FFFFF ∧
  (∀ x y z : Word, ch x y z = (x &&& y) ^^^ (~~~x &&& z) ∧
    ∀ i, i < 32 → (ch x y z).getLsbD i = if x.getLsbD i then y.getLsbD i else z.getLsbD i) ∧
  (∀ y z : Word, ch 0xFFFFFFFF y z = y ∧ ch 0 y z = z) ∧
  ch 0x510e527f 0x9b05688c 0x1f83d9ab = 0x1f85c98c ∧
  (∀ x y z : Word, maj x y z = (x &&& y) ^^^ (x &&& z) ^^^ (y &&& z) ∧ maj x x z = x ∧
    ∀ i, i < 32 → (maj x y z).getLsbD i =
      (x.getLsbD i && y.getLsbD i || x.getLsbD i && z.getLsbD i || y.getLsbD i && z.getLsbD i)) ∧
  maj 0x6a09e667 0xbb67ae85 0x3c6ef372 = 0x3a6fe667

/-- R104 to R107: the four sigma functions, with their corner cases. -/
def Obligations.SigmaFunctions : Prop :=
  (∀ x : Word, bigSigma0 x = rotr x 2 ^^^ rotr x 13 ^^^ rotr x 22 ∧
    bigSigma1 x = rotr x 6 ^^^ rotr x 11 ^^^ rotr x 25 ∧
    smallSigma0 x = rotr x 7 ^^^ rotr x 18 ^^^ x >>> 3 ∧
    smallSigma1 x = rotr x 17 ^^^ rotr x 19 ^^^ x >>> 10) ∧
  bigSigma0 0 = 0 ∧ bigSigma0 0xFFFFFFFF = 0xFFFFFFFF ∧ bigSigma0 0x6a09e667 = 0xce20b47e ∧
  bigSigma1 0 = 0 ∧ bigSigma1 0xFFFFFFFF = 0xFFFFFFFF ∧ bigSigma1 0x510e527f = 0x3587272b ∧
  smallSigma0 0 = 0 ∧ smallSigma0 0xFFFFFFFF = 0x1FFFFFFF ∧ smallSigma0 0x80000000 = 0x11002000 ∧
  smallSigma1 0 = 0 ∧ smallSigma1 0xFFFFFFFF = 0x003FFFFF ∧ smallSigma1 0x80000000 = 0x00205000

/-- R108: `add32` is the exact sum reduced mod 2^32, whatever the order of its operands. -/
def Obligations.WordAdditionLaws : Prop :=
  (∀ xs : List Word, (add32 xs).toNat = (xs.map BitVec.toNat).sum % 2 ^ 32) ∧
  (∀ xs ys : List Word, xs.Perm ys → add32 xs = add32 ys) ∧
  (∀ xs ys : List Word, add32 (add32 xs :: ys) = add32 (xs ++ ys)) ∧
  add32 [0xFFFFFFFF, 1] = 0 ∧ add32 [0x80000000, 0x80000000, 5] = 5

/-- R24: entry `i` of the initial-value ROM is `isqrt(p_i * 2^64) mod 2^32` for the `i`-th prime. -/
def Obligations.InitialValueRom : Prop :=
  primes.take 8 = [2, 3, 5, 7, 11, 13, 17, 19] ∧
  ∀ i, i < 8 → ∃ r : Nat, r ^ 2 ≤ primes.getD i 0 * 2 ^ 64 ∧ primes.getD i 0 * 2 ^ 64 < (r + 1) ^ 2 ∧
    (h0Rom.toList.getD i 0).toNat = r % 2 ^ 32

/-- R109: entry `i` of the round-constant ROM is `icbrt(p_i * 2^96) mod 2^32` for the `i`-th prime, from
`p_0 = 2` to `p_63 = 311`. -/
def Obligations.RoundConstantRom : Prop :=
  primes.length = 64 ∧ (∀ p, p ∈ primes ↔ p.Prime ∧ p ≤ 311) ∧ primes.Pairwise (· < ·) ∧
  ∀ i, i < 64 → ∃ r : Nat, r ^ 3 ≤ primes.getD i 0 * 2 ^ 96 ∧ primes.getD i 0 * 2 ^ 96 < (r + 1) ^ 3 ∧
    (kRom.toList.getD i 0).toNat = r % 2 ^ 32

/-- R110 and R111: the message schedule of a 64-byte block. -/
def Obligations.MessageSchedule : Prop :=
  (∀ blk : List Byte, blk.length = 64 →
    (schedule blk).length = 64 ∧
    (∀ j, j < 16 → (schedule blk).getD j 0 =
      be32 (blk.getD (4 * j) 0) (blk.getD (4 * j + 1) 0) (blk.getD (4 * j + 2) 0)
        (blk.getD (4 * j + 3) 0)) ∧
    ∀ i, 16 ≤ i → i < 64 → (schedule blk).getD i 0 =
      add32 [smallSigma1 ((schedule blk).getD (i - 2) 0), (schedule blk).getD (i - 7) 0,
        smallSigma0 ((schedule blk).getD (i - 15) 0), (schedule blk).getD (i - 16) 0]) ∧
  schedule (List.replicate 64 0) = List.replicate 64 0 ∧
  be32 0x61 0x62 0x63 0x80 = 0x61626380 ∧
  (schedule (0x80 :: List.replicate 63 0)).take 18 =
    0x80000000 :: List.replicate 15 0 ++ [0x80000000, 0]

/-- R112 and R113: loading the working variables, and one round, every right-hand side read before. -/
def Obligations.RoundAssignments : Prop :=
  (∀ hin : HashState,
    loadVars hin = ⟨hin[0], hin[1], hin[2], hin[3], hin[4], hin[5], hin[6], hin[7]⟩) ∧
  (∀ (v : WorkVars) (k w t1 t2 : Word),
    t1 = add32 [v.h, bigSigma1 v.e, ch v.e v.f v.g, k, w] → t2 = add32 [bigSigma0 v.a, maj v.a v.b v.c] →
    oneRound v k w = ⟨add32 [t1, t2], v.a, v.b, v.c, add32 [v.d, t1], v.e, v.f, v.g⟩) ∧
  (loadVars h0Rom).a = 0x6a09e667 ∧ (loadVars h0Rom).e = 0x510e527f ∧
  roundT1 (loadVars h0Rom) 0x428a2f98 0x80000000 = 0x7377ed68 ∧
  roundT2 (loadVars h0Rom) = 0x08909ae5 ∧
  (oneRound (loadVars h0Rom) 0x428a2f98 0x80000000).a = 0x7c08884d ∧
  (oneRound (loadVars h0Rom) 0x428a2f98 0x80000000).e = 0x18c7e2a2

/-- R114 to R116: a compression loads the working variables, runs the rounds 0 to 63 in order, round `i`
with `K[i]` and `W[i]`, and adds the result to `Hin` word by word. -/
def Obligations.CompressRunsSixtyFourRounds : Prop :=
  (compress h0Rom (0x80 :: List.replicate 63 0)).toList =
    [0xe3b0c442, 0x98fc1c14, 0x9afbf4c8, 0x996fb924, 0x27ae41e4, 0x649b934c, 0xa495991b,
      0x7852b855] ∧
  add32 [0x6a09e667, 0x79a6dddb] = 0xe3b0c442 ∧
  ∀ (hin : HashState) (blk : List Byte), blk.length = 64 →
    ∃ v : Nat → WorkVars, v 0 = loadVars hin ∧
      (∀ i, i < 64 → v (i + 1) =
        oneRound (v i) (kRom.toList.getD i 0) ((schedule blk).getD i 0)) ∧
      (compress hin blk).toList =
        [add32 [hin[0], (v 64).a], add32 [hin[1], (v 64).b], add32 [hin[2], (v 64).c],
          add32 [hin[3], (v 64).d], add32 [hin[4], (v 64).e], add32 [hin[5], (v 64).f],
          add32 [hin[6], (v 64).g], add32 [hin[7], (v 64).h]]

/-- R119: a compressor that keeps a 16-word sliding window of the schedule computes the same function as
one that keeps all 64 words. -/
def Obligations.SlidingWindowCompressorAgrees : Prop :=
  ∀ (hin : HashState) (blk : List Byte), blk.length = 64 → compressWindow hin blk = compress hin blk

/-- R177, R55: the serializer is big-endian, byte `4i + j` of the digest being
`H[i][31 - 8j : 24 - 8j]`. -/
def Obligations.SerializerIsBigEndian : Prop :=
  ∀ h : HashState,
    (serialize h).toList = bytesBE h[0] 4 ++ bytesBE h[1] 4 ++ bytesBE h[2] 4 ++ bytesBE h[3] 4 ++
      bytesBE h[4] 4 ++ bytesBE h[5] 4 ++ bytesBE h[6] 4 ++ bytesBE h[7] 4 ∧
    ∀ i j, i < 8 → j < 4 →
      (serialize h).toList.getD (4 * i + j) 0 = (h.toList.getD i 0).extractLsb' (24 - 8 * j) 8

/-- R74: byte `k` of the digest is bits 255-8k to 248-8k of the `digest` port (while `cmd_ready = 1`,
R235), and the port's value is the digest read as one big-endian number. -/
def Obligations.DigestPortMapping : Prop :=
  (∀ (s : State) (k : Nat), cmdReady s = true → k < 32 →
    (digestPort s).extractLsb' (248 - 8 * k) 8 = s.dg.toList.getD k 0) ∧
  (∀ s : State, cmdReady s = true →
    (digestPort s).toNat = s.dg.toList.foldl (fun acc b => acc * 256 + b.toNat) 0) ∧
  digestValue (sha256 []) = 0xe3b0c44298fc1c149afbf4c8996fb92427ae41e4649b934ca495991b7852b855

/-! ## The commands -/

/-- R141: NOP changes no state, in every state; the words `0x0001..0x00FF` are illegal. -/
def Obligations.NopChangesNothing : Prop :=
  decode 0x0000 = .ok .nop ∧ (∀ s : State, exec .nop s = .next s) ∧
  (∀ n, 1 ≤ n → n ≤ 0xFF → ∃ e, decode (BitVec.ofNat 16 n) = .error e) ∧
  ∀ s : State, status s = 0x0105 → ∃ t, exec .nop s = .next t ∧ status t = 0x0105

/-- R142: INIT gives the initial context in every state, leaves `BUF` and the port as they are, and
changes nothing right after reset or after another INIT. No other command leaves the error lock or the
finalized state. -/
def Obligations.InitLoadsTheInitialContext : Prop :=
  decode 0x1000 = .ok .init ∧
  (∀ s : State, ∃ t, exec .init s = .next t ∧ t.h = h0Rom ∧ t.buflen = 0 ∧ t.tbl = 0 ∧ t.fin = false ∧
    t.errcode = .none ∧ t.dg.toList = List.replicate 32 0 ∧ status t = 0x0000 ∧ t.buf = s.buf ∧
    t.erred = s.erred ∧ t.pins = s.pins ∧ t.held = s.held ∧
    t.busy = s.busy ∧ t.latency = s.latency ∧ t.freeCount = s.freeCount ∧ exec .init t = .next t) ∧
  exec .init .reset = .next .reset ∧
  (∀ (w : CmdWord) (s t : State), execute w s = .next t → decode w ≠ .ok .init →
    (s.errcode ≠ .none → t.errcode ≠ .none) ∧ (s.fin = true → t.fin = true)) ∧
  ∃ t, executeAll [0x1000, 0x2061, 0x3000] .reset = .next t ∧ status t = 0x0040

/-- R143 and R144: UPDATE in every state. Under the error lock it has no effect; on a finalized context it
raises MISUSE; a byte that would make the message reach 2^64 bits raises INPUT_TOO_LARGE; otherwise the
byte goes to `BUF[BUFLEN]`, and the 64th byte of a block starts the block trigger. Every other field and
every other byte of `BUF` is as before: UPDATE writes `BUF[BUFLEN]` only, and the trigger does not clear
`BUF`. -/
def Obligations.UpdateCommand : Prop :=
  (∀ (b : Byte) (s : State),
    (s.errcode ≠ .none → exec (.update b) s = .next s) ∧
    (s.errcode = .none → s.fin = true →
      exec (.update b) s = .next { s with errcode := .misuse, erred := true }) ∧
    (s.errcode = .none → s.fin = false → 2 ^ 64 ≤ s.tbl.toNat + 8 * (s.buflen.toNat + 1) →
      exec (.update b) s = .next { s with errcode := .inputTooLarge, erred := true }) ∧
    (s.errcode = .none → s.fin = false → s.tbl.toNat + 8 * (s.buflen.toNat + 1) < 2 ^ 64 →
      ∃ t, exec (.update b) s = .next t ∧
        (∀ a, t.buf.read a = if a = s.buflen.toNat then b else s.buf.read a) ∧
        (s.buflen.toNat < 63 → t.buflen.toNat = s.buflen.toNat + 1 ∧
          t = { s with buf := t.buf, buflen := t.buflen }) ∧
        (s.buflen.toNat = 63 →
          t.h = compress s.h (s.buf.readBytes 0 63 ++ [b]) ∧ t.tbl.toNat = s.tbl.toNat + 512 ∧
          t.buflen = 0 ∧ t = { s with buf := t.buf, h := t.h, tbl := t.tbl, buflen := 0 }))) ∧
  (∃ t, exec (.update 0x61) .reset = .next t ∧ t.buf.read 0 = 0x61 ∧ t.buflen = 1 ∧ t.tbl = 0 ∧
    status t = 0x0001) ∧
  ∃ t, executeAll (List.replicate 64 0x2000) .reset = .next t ∧
    t.h = compress h0Rom (List.replicate 64 0) ∧ t.tbl = 512 ∧ t.buflen = 0

/-- R170 to R178, R52: FINALIZE in every state. Under the error lock it has no effect; on a finalized
context it raises MISUSE; otherwise it pads, compresses one block or two, and writes the digest, each byte of
it the byte of `H` that R177 names. Every other field is as before; `BUF` holds the last block, as R178 says
(no command reads it from there on: `StaleBytesAreNeverRead`). The length is R174's exact sum, which is the
message's length in bits, wherever the sum fits the 64 bits of `TBL`; for a state where it does not,
`LengthNeverWraps` says what the model chose. -/
def Obligations.FinalizeCommand : Prop :=
  ∀ s : State,
    (s.errcode ≠ .none → exec .finalize s = .next s) ∧
    (s.errcode = .none → s.fin = true →
      exec .finalize s = .next { s with errcode := .misuse, erred := true }) ∧
    (s.errcode = .none → s.fin = false →
      ∃ t, exec .finalize s = .next t ∧ t.fin = true ∧ t.buflen = 0 ∧
        (s.tbl.toNat + 8 * s.buflen.toNat < 2 ^ 64 →
          t.tbl.toNat = s.tbl.toNat + 8 * s.buflen.toNat) ∧
        (∀ m : List Byte, Accounts m s → t.tbl.toNat = 8 * m.length) ∧
        (s.buflen.toNat < 56 →
          t.h = compress s.h (blockOf (oneBlockByte s.buf.read s.buflen.toNat t.tbl)) ∧
          ∀ a, t.buf.read a =
            if a < 64 then oneBlockByte s.buf.read s.buflen.toNat t.tbl a else s.buf.read a) ∧
        (56 ≤ s.buflen.toNat →
          t.h = compress (compress s.h (blockOf (firstBlockByte s.buf.read s.buflen.toNat)))
            (blockOf (secondBlockByte t.tbl)) ∧
          ∀ a, t.buf.read a = if a < 64 then secondBlockByte t.tbl a else s.buf.read a) ∧
        t.dg = serialize t.h ∧
        (∀ i j, i < 8 → j < 4 →
          t.dg.toList.getD (4 * i + j) 0 = (t.h.toList.getD i 0).extractLsb' (24 - 8 * j) 8) ∧
        t = { s with h := t.h, buf := t.buf, buflen := 0, tbl := t.tbl, fin := true, dg := t.dg }) ∧
    ∃ t, exec .finalize .reset = .next t ∧ status t = 0x0040 ∧
      digestValue t.dg = 0xe3b0c44298fc1c149afbf4c8996fb92427ae41e4649b934ca495991b7852b855

/-! ## Errors -/

/-- R30, R200 and R201: raising an error records its code if no error is recorded, keeps the first error
otherwise, and changes nothing else of the engine. -/
def Obligations.RaiseKeepsTheFirstError : Prop :=
  (EngineError.code .illegalCommand).bits = 1 ∧ (EngineError.code .misuse).bits = 2 ∧
  (EngineError.code .inputTooLarge).bits = 3 ∧ ErrCode.none.bits = 0 ∧
  ∀ (e : EngineError) (s : State),
    (s.errcode = .none → raise e s = { s with errcode := e.code, erred := true }) ∧
    (s.errcode ≠ .none → raise e s = { s with erred := true })

/-- R202: the error lock. UPDATE, FINALIZE and NOP change nothing; INIT works in full and clears the lock;
an illegal word leaves ERRCODE and every other part of the engine alone; so no command but INIT leaves
the lock or makes a digest valid. -/
def Obligations.ErrorLock : Prop :=
  ∀ s : State, s.errcode ≠ .none →
    (∀ b, exec (.update b) s = .next s) ∧ exec .finalize s = .next s ∧ exec .nop s = .next s ∧
    (∃ t, exec .init s = .next t ∧ t.errcode = .none ∧ t.h = h0Rom ∧ t.buflen = 0 ∧ t.tbl = 0 ∧
      t.fin = false ∧ t.dg = zeroDigest) ∧
    (∀ w e, decode w = .error e → execute w s = .next { s with erred := true }) ∧
    ∀ w t, execute w s = .next t → decode w ≠ .ok .init →
      t.errcode = s.errcode ∧ t.fin = s.fin ∧ t.dg = s.dg

/-- R207: a command that raises an error changes only `ERRCODE` (and the model's ghost flag). -/
def Obligations.ErrorsArePrecise : Prop :=
  ∀ (w : CmdWord) (s t : State), execute w s = .next t →
    (s.errcode = .none ∧ t.errcode ≠ .none) ∨ (s.erred = false ∧ t.erred = true) →
    t = { s with errcode := t.errcode, erred := true }

/-- R208: the one outcome of an accepted word, in the rule's order. -/
def Obligations.OutcomePriority : Prop :=
  ∀ (w : CmdWord) (s : State),
    (∀ e, decode w = .error e → execute w s = .next (raise .illegalCommand s)) ∧
    ∀ i, decode w = .ok i →
      ((i = .finalize ∨ ∃ b, i = .update b) →
        (s.errcode ≠ .none → execute w s = .next s) ∧
        (s.errcode = .none → s.fin = true → execute w s = .next (raise .misuse s))) ∧
      (∀ b, i = .update b → s.errcode = .none → s.fin = false →
        2 ^ 64 ≤ s.tbl.toNat + 8 * (s.buflen.toNat + 1) →
        execute w s = .next (raise .inputTooLarge s)) ∧
      ((i = .nop ∨ i = .init ∨ (i = .finalize ∧ s.errcode = .none ∧ s.fin = false) ∨
          ∃ b, i = .update b ∧ s.errcode = .none ∧ s.fin = false ∧
            s.tbl.toNat + 8 * (s.buflen.toNat + 1) < 2 ^ 64) →
        ∃ t, execute w s = .next t ∧ t.erred = s.erred ∧ t.errcode = if i = .init then .none else s.errcode)

/-! ## The whole machine -/

/-- R140: `Execute` dispatches on the decoded word, has a result for every 16-bit word in every state, and
leaves the port alone. -/
def Obligations.ExecuteIsTotal : Prop :=
  ∀ (w : CmdWord) (s : State),
    (∀ i, decode w = .ok i → execute w s = exec i s) ∧
    (∀ e, decode w = .error e → execute w s = .next (raise .illegalCommand s)) ∧
    ∃ t, execute w s = .next t ∧ t.pins = s.pins ∧ t.held = s.held ∧
      t.busy = s.busy ∧ t.latency = s.latency ∧ t.freeCount = s.freeCount

/-- R23: only reset, INIT, the block trigger and FINALIZE write `H`; reset and INIT load `H0`, the others
compress. -/
def Obligations.HashStateWriters : Prop :=
  State.reset.h = h0Rom ∧ ∀ s t : State, step s = .next t → t.h ≠ s.h →
    ((nextPins s).rst = true ∧ t.h = h0Rom) ∨
    ∃ w, Accepts s w ∧
      ((decode w = .ok .init ∧ t.h = h0Rom) ∨
      ((∃ b, decode w = .ok (.update b)) ∧ s.buflen.toNat = 63 ∧
        ∃ blk, blk.length = 64 ∧ t.h = compress s.h blk) ∨
      (decode w = .ok .finalize ∧
        ((s.buflen.toNat < 56 ∧ ∃ blk, blk.length = 64 ∧ t.h = compress s.h blk) ∨
          (56 ≤ s.buflen.toNat ∧ ∃ blk blk', blk.length = 64 ∧ blk'.length = 64 ∧
            t.h = compress (compress s.h blk) blk'))))

/-- R147: the length counter is written in exactly three places: the block trigger adds 512, FINALIZE sets
the final length (R174's exact sum, wherever that fits the 64 bits of `TBL`), INIT or reset sets 0. -/
def Obligations.LengthCounterWriters : Prop :=
  ∀ s t : State, step s = .next t → t.tbl ≠ s.tbl →
    ((nextPins s).rst = true ∧ t.tbl = 0) ∨
    ∃ w, Accepts s w ∧
      ((decode w = .ok .init ∧ t.tbl = 0) ∨
      ((∃ b, decode w = .ok (.update b)) ∧ s.buflen.toNat = 63 ∧ t.tbl.toNat = s.tbl.toNat + 512) ∨
      (decode w = .ok .finalize ∧ t.fin = true ∧
        (s.tbl.toNat + 8 * s.buflen.toNat < 2 ^ 64 →
          t.tbl.toNat = s.tbl.toNat + 8 * s.buflen.toNat)))

/-- R29: only a FINALIZE that succeeds sets `FIN`; only INIT and reset clear it. -/
def Obligations.FinWriters : Prop :=
  ∀ s t : State, step s = .next t →
    (s.fin = false → t.fin = true →
      s.errcode = .none ∧ ∃ w, Accepts s w ∧ decode w = .ok .finalize) ∧
    (s.fin = true → t.fin = false →
      (nextPins s).rst = true ∨ ∃ w, Accepts s w ∧ decode w = .ok .init)

/-- R30: the codes of `ERRCODE`, and that it holds the first error: a step changes it only from NONE, by
raising an error, or to NONE, by INIT or reset. -/
def Obligations.ErrcodeWriters : Prop :=
  ErrCode.none.bits = 0 ∧ ErrCode.illegalCommand.bits = 1 ∧ ErrCode.misuse.bits = 2 ∧
  ErrCode.inputTooLarge.bits = 3 ∧ State.reset.errcode = .none ∧
  ∀ s t : State, step s = .next t → t.errcode ≠ s.errcode →
    ((nextPins s).rst = true ∧ t.errcode = .none) ∨
    ∃ w, Accepts s w ∧
      ((decode w = .ok .init ∧ t.errcode = .none) ∨
      (s.errcode = .none ∧
        ((t.errcode = .illegalCommand ∧ ∃ e, decode w = .error e) ∨
          (t.errcode = .misuse ∧ s.fin = true ∧
            (decode w = .ok .finalize ∨ ∃ b, decode w = .ok (.update b))) ∨
          (t.errcode = .inputTooLarge ∧ 2 ^ 64 ≤ s.tbl.toNat + 8 * (s.buflen.toNat + 1) ∧
            ∃ b, decode w = .ok (.update b)))))

/-- U13: the model's ghost flag is set by every command that raises an error, and by nothing else; no
command clears it. -/
def Obligations.GhostFlagRecordsEveryError : Prop :=
  ∀ (w : CmdWord) (s t : State), execute w s = .next t →
    (t.erred = true ↔ s.erred = true ∨ (∃ e, decode w = .error e) ∨
      (s.errcode = .none ∧ t.errcode ≠ .none))

/-- R31: only a FINALIZE that succeeds writes the digest, with the serialization of `H`, and only on an
active context; only INIT and reset set it back to zero. -/
def Obligations.DigestWriters : Prop :=
  ∀ s t : State, step s = .next t → t.dg ≠ s.dg →
    ((nextPins s).rst = true ∧ t.dg = zeroDigest) ∨
    ∃ w, Accepts s w ∧
      ((decode w = .ok .init ∧ t.dg = zeroDigest) ∨
      (decode w = .ok .finalize ∧ s.fin = false ∧ s.errcode = .none ∧ t.fin = true ∧
        t.dg = serialize t.h))

/-- R25, R50: only UPDATE, at index `BUFLEN`, and FINALIZE write `BUF`, and neither reaches an index
outside 0..63. A reset edge leaves `BUF` unspecified, so nothing is said of it. -/
def Obligations.PendingBufferWriters : Prop :=
  ∀ s t : State, step s = .next t → (nextPins s).rst = false → ∀ a, t.buf.read a ≠ s.buf.read a →
    a < 64 ∧ ∃ w, Accepts s w ∧
      ((a = s.buflen.toNat ∧ ∃ b, decode w = .ok (.update b) ∧ t.buf.read a = b) ∨
        decode w = .ok .finalize)

/-- R32: the fields of `STATUS`. -/
def Obligations.StatusFields : Prop :=
  ∀ s : State,
    status s = s.buflen.setWidth 16 ||| (BitVec.ofBool s.fin).setWidth 16 <<< 6 |||
      s.errcode.bits.setWidth 16 <<< 8 ∧
    (status s).extractLsb 5 0 = s.buflen ∧ (status s).getLsbD 6 = s.fin ∧
    (status s).getLsbD 7 = false ∧ (status s).extractLsb 9 8 = s.errcode.bits ∧
    (status s).extractLsb 15 10 = 0 ∧ status .reset = 0x0000

/-- The reset state meets the invariant. -/
def Obligations.InvariantHoldsAtReset : Prop := Inv .reset

/-- Every step keeps the invariant, from every state that meets it, whatever the host drives. -/
def Obligations.EveryStepKeepsTheInvariant : Prop :=
  ∀ s t : State, Inv s → step s = .next t → Inv t

/-- R36: whenever `FIN = 1`, `DG = serialize(H)`, and whenever `FIN = 0`, `DG` is 32 bytes of 0x00: true
after a command if it was true before. The digest's value is `FinalizeHashesTheMessage`. -/
def Obligations.DigestMatchesLifecycle : Prop :=
  ∀ (w : CmdWord) (s t : State),
    (s.fin = true → s.dg = serialize s.h) → (s.fin = false → s.dg.toList = List.replicate 32 0) →
    execute w s = .next t →
    (t.fin = true → t.dg = serialize t.h) ∧ (t.fin = false → t.dg.toList = List.replicate 32 0)

/-- R206: in a state that meets the invariant no length sum wraps, neither the block trigger's nor
FINALIZE's. In every state FINALIZE's sum is the 64-bit one; where the exact sum does not fit, in no state
that meets the invariant, that is the model's choice (notes/assumptions/5.md). -/
def Obligations.LengthNeverWraps : Prop :=
  (∀ (w : CmdWord) (s t : State), Inv s → execute w s = .next t →
    (messageBits s).toNat = s.tbl.toNat + 8 * s.buflen.toNat ∧
    (decode w = .ok .init ∨ s.tbl.toNat ≤ t.tbl.toNat) ∧
    t.tbl.toNat + 8 * t.buflen.toNat < 2 ^ 64) ∧
  ∀ s : State, s.errcode = .none → s.fin = false →
    ∃ t, exec .finalize s = .next t ∧ t.tbl = messageBits s ∧
      t.tbl.toNat = (s.tbl.toNat + 8 * s.buflen.toNat) % 2 ^ 64

/-! ## The message -/

/-- R35: the accounting of the message. It holds of the empty message at reset and after INIT, and every
command keeps it, with the message it leaves, while `FIN = 0`. -/
def Obligations.MessageAccounting : Prop :=
  Accounts [] .reset ∧
  ∀ (w : CmdWord) (s t : State) (m : List Byte), (s.fin = false → Accounts m s) →
    execute w s = .next t → t.fin = false → Accounts (messageAfter w s m) t

/-- R35, R36: every step keeps track of the message, whatever the host drives. While `FIN = 0` the state
accounts for the message absorbed, and while `FIN = 1` `DG` is that message's SHA-256 digest; it is so at
reset, of the empty message. -/
def Obligations.EveryStepTracksTheMessage : Prop :=
  TracksMessage [] .reset ∧
  ∀ (s t : State) (m : List Byte), TracksMessage m s → step s = .next t →
    TracksMessage (messageAfterStep s m) t

/-- R36, R180: a FINALIZE that succeeds leaves in `DG` the SHA-256 digest of the message, as the padded
message's blocks give it. -/
def Obligations.FinalizeHashesTheMessage : Prop :=
  ∀ (s : State) (m : List Byte), s.errcode = .none → s.fin = false → Accounts m s →
    m.length ≤ Config.maxMessageBytes →
    ∃ t, exec .finalize s = .next t ∧ t.dg = sha256 m ∧ t.tbl.toNat = 8 * m.length ∧
      t.fin = true ∧ t.errcode = .none ∧ status t = 0x0040

/-- R81, R9: from any state, the command sequence of `HASH` gives the digest of any message of at most
`MAX_MESSAGE_BYTES` bytes. -/
def Obligations.HashSequenceComputesSha256 : Prop :=
  ∀ (s : State) (bs : List AsmByte), bs.length ≤ Config.maxMessageBytes →
    ∃ t, executeAll (asmWords (.hash bs)) s = .next t ∧ t.dg = sha256 (bs.map asmByte) ∧
      status t = 0x0040 ∧ t.erred = s.erred

/-- R241, R36: whatever the words of a run, if it ends with `ERRCODE = NONE` and `FIN = 1`, its digest is
the SHA-256 digest of the message it hashed. -/
def Obligations.RunDigestIsSha256 : Prop :=
  ∀ (ws : List CmdWord) (m : List Byte) (t : State), RunHashed ws m t →
    t.dg = sha256 m ∧ (observe t).status = 0x0040

/-- R179 to R181: how many blocks the padded message has, and the number `z` of zero bytes. -/
def Obligations.PaddedMessageLength : Prop :=
  (∀ m : List Byte,
    (padMessage m).length = 64 * (m.length / 64 + 1 + if 56 ≤ m.length % 64 then 1 else 0) ∧
    (cutBlocks (padMessage m)).length = m.length / 64 + 1 + (if 56 ≤ m.length % 64 then 1 else 0)) ∧
  (∀ n : Nat, ((zeroCount n : Int) = (55 - (n : Int)) % 64) ∧ zeroCount n < 64) ∧
  zeroCount 55 = 0 ∧ zeroCount 56 = 63 ∧ zeroCount 63 = 56 ∧ zeroCount 64 = 55 ∧ zeroCount 65 = 54

/-- R145: UPDATE sequences compose, and NOPs anywhere change nothing. -/
def Obligations.StreamingEquivalence : Prop :=
  (∀ (a b : List AsmByte) (s : State),
    executeAll (asmWords (.updateBytes a) ++ asmWords (.updateBytes b)) s =
      executeAll (asmWords (.updateBytes (a ++ b))) s) ∧
  (∀ (a b : List CmdWord) (s t : State), executeAll a s = .next t →
    executeAll (a ++ b) s = executeAll b t) ∧
  ∀ (ws : List CmdWord) (s : State), executeAll ws s = executeAll (ws.filter (· ≠ 0x0000)) s

/-- R26: no command reads a byte of `BUF[BUFLEN..63]` before it writes it. Two states that agree in
everything but those bytes still do after any word. -/
def Obligations.StaleBytesAreNeverRead : Prop :=
  ∀ (w : CmdWord) (s s' t : State), AgreeUpToStale s s' → execute w s = .next t →
    ∃ t', execute w s' = .next t' ∧ AgreeUpToStale t t'

/-! ## The port and reset -/

/-- A step runs the decoded command: at an edge that accepts a legal word, the step is `exec` of the command
in the state whose pins are taken, and `cmd_ready` then stays 0 for the next number of edges of
`latency`. The word that `withFetchWord` puts on the port is the one the next step runs. That the effect
stands at the accepting edge is the model's choice (notes/assumptions/2.md): R73 asks only that it is in the
state when `cmd_ready` rises. -/
def Obligations.StepRunsTheDecodedCommand : Prop :=
  (∀ (s : State) (i : Instr), (nextPins s).rst = false → (nextPins s).cmdValid = true →
    (nextPins s).stable s.held = true → s.busy = 0 → decode (nextPins s).cmd = .ok i →
    step s = match exec i { s with pins := s.pins.tail, held := none } with
      | .next t => .next { t with busy := t.latency.headD 0, latency := t.latency.tail }
      | .fault f => .fault f
      | .refused r => .refused r) ∧
  ∀ (s : State) (w : Nat) (i : Instr), w < 65536 → decodeTableWord 16 w = some i →
    step (s.withFetchWord 16 w) = match exec i { s with held := none, busy := 0 } with
      | .next t => .next { t with busy := t.latency.headD 0, latency := t.latency.tail }
      | .fault f => .fault f
      | .refused r => .refused r

/-- At an edge that accepts an illegal word the step raises ILLEGAL_COMMAND and goes on (R201, R203). That
the error stands at the accepting edge, with `cmd_ready` still 0 for the next number of edges of `latency`,
is the model's choice (notes/assumptions/2.md): R73 asks only that it is in the state when `cmd_ready`
rises. -/
def Obligations.StepRaisesOnAnIllegalWord : Prop :=
  ∀ (s : State) (e : Illegal), (nextPins s).rst = false → (nextPins s).cmdValid = true →
    (nextPins s).stable s.held = true → s.busy = 0 → decode (nextPins s).cmd = .error e →
    ∃ t, step s = .next t ∧ SameEngine (raise .illegalCommand s) t ∧ t.busy = s.latency.headD 0 ∧
      t.held = none ∧ t.pins = s.pins.tail

/-- R73, R82: the engine never starts work without a command, and never accepts one while
`cmd_ready = 0`. That a busy edge leaves the engine as it is, the command's effect standing since its
accepting edge, is the model's choice (notes/assumptions/2.md). -/
def Obligations.NoCommandNoEffect : Prop :=
  ∀ s : State, (nextPins s).rst = false → (nextPins s).stable s.held = true →
    (s.busy ≠ 0 ∨ (nextPins s).cmdValid = false) →
    ∃ t, step s = .next t ∧ SameEngine s t ∧ t.pins = s.pins.tail ∧ t.busy = s.busy - 1 ∧
      t.latency = s.latency

/-- R234: a host that changes or withdraws a command before it is accepted is refused. -/
def Obligations.UnstableCommandRefused : Prop :=
  ∀ (s : State) (w : CmdWord), s.held = some w → (nextPins s).rst = false →
    ((nextPins s).cmdValid = false ∨ (nextPins s).cmd ≠ w) → step s = .refused .unstableCommand

/-- R230, R237: an edge with `rst = 1` accepts no command and gives the reset state, whatever was
executing; `BUF` is unspecified after it, so nothing is said of it. -/
def Obligations.ResetEdgeGivesTheResetState : Prop :=
  ∀ s : State, (nextPins s).rst = true →
    ∃ t, step s = .next t ∧ t.h = h0Rom ∧ t.buflen = 0 ∧ t.tbl = 0 ∧ t.fin = false ∧
      t.errcode = .none ∧ t.dg.toList = List.replicate 32 0 ∧ status t = 0x0000 ∧
      ∃ i, exec .init s = .next i ∧ t.h = i.h ∧ t.buflen = i.buflen ∧ t.tbl = i.tbl ∧ t.fin = i.fin ∧
        t.errcode = i.errcode ∧ t.dg = i.dg

/-- What an edge with `rst = 1` does to the model's own fields, the model's choice
(notes/assumptions/2.md, 4.md): the ghost flag is cleared (U13), a word presented there is not accepted and
is held from then on, `cmd_ready` comes back after a finite number of edges (R230); and a host that then
presents nothing else sees the reset state once it does. -/
def Obligations.ResetEdgeOnThePort : Prop :=
  ∀ s : State, (nextPins s).rst = true →
    ∃ t, step s = .next t ∧ t.erred = false ∧ t.held = (nextPins s).word ∧ t.pins = s.pins.tail ∧
      t.busy = s.latency.headD 0 ∧ t.latency = s.latency.tail ∧
      (t.held = none → t.pins = [] →
        ∃ u, core.run t.busy t = .next u ∧ cmdReady u = true ∧ statusPort u = 0x0000 ∧ digestPort u = 0)

/-- R20, R230: the reset state. -/
def Obligations.ResetState : Prop :=
  State.reset.h.toList = [0x6a09e667, 0xbb67ae85, 0x3c6ef372, 0xa54ff53a, 0x510e527f, 0x9b05688c,
    0x1f83d9ab, 0x5be0cd19] ∧
  State.reset.buflen = 0 ∧ State.reset.tbl = 0 ∧ State.reset.fin = false ∧
  State.reset.errcode = .none ∧ State.reset.dg.toList = List.replicate 32 0 ∧
  cmdReady .reset = true

/-- R239: `cmd_ready` returns to 1 with no further host action than keeping R234. That the engine is busy for
a finite number of edges is the premise of notes/assumptions/7.md; that its state is all along as the last
command left it is the model's choice (notes/assumptions/2.md). -/
def Obligations.ReadyReturns : Prop :=
  ∀ (s : State) (front rest : List Pins), s.pins = front ++ rest → front.length = s.busy →
    HostKeeps s.held front →
    ∃ t, core.run s.busy s = .next t ∧ cmdReady t = true ∧ SameEngine s t ∧ t.pins = rest ∧
      t.latency = s.latency

/-- R73, R82: a command that the host presents and keeps is accepted at the first edge with
`cmd_ready = 1`, however long the engine is busy. That the engine is busy for a finite number of edges is the
premise of notes/assumptions/7.md; that the command takes its whole effect at the accepting edge, with
`cmd_ready` still 0 for the next number of edges of `latency`, is the model's choice
(notes/assumptions/2.md): R73 asks only that the effect is in the state when `cmd_ready` rises. -/
def Obligations.PresentedCommandIsAccepted : Prop :=
  ∀ (s : State) (w : CmdWord) (rest : List Pins),
    s.pins = List.replicate (s.busy + 1) (.present w) ++ rest → (s.held = none ∨ s.held = some w) →
    ∃ t u, core.run (s.busy + 1) s = .next t ∧ execute w s = .next u ∧ SameEngine u t ∧
      t.held = none ∧ t.pins = rest ∧ t.busy = s.latency.headD 0

/-- R75, R235: while `cmd_ready = 1` the ports show `STATUS` and `DG`. -/
def Obligations.PortsShowTheStateWhenReady : Prop :=
  ∀ s : State, cmdReady s = true → statusPort s = status s ∧ digestPort s = digestValue s.dg

/-- R59, R239: the effect of a command sequence on the port is the fold of `Execute` over it, whatever
finite number of edges each command takes (that each takes finitely many is the premise of
notes/assumptions/7.md). -/
def Obligations.TimingDoesNotChangeResults : Prop :=
  ∀ (cs : List (CmdWord × Nat)) (s : State), s.busy = 0 → s.held = none →
    s.pins = cs.flatMap (fun c => Pins.present c.1 :: List.replicate c.2 Pins.idle) →
    s.latency = cs.map Prod.snd →
    ∃ t u, core.run (cs.length + (cs.map Prod.snd).sum) s = .next t ∧
      executeAll (cs.map Prod.fst) s = .next u ∧ SameEngine u t ∧ cmdReady t = true
end

