-- ==== Sys2Proof/Laws/Compressor.lean ====
section
/-! SUPPORT. The compressor's small lemmas: how many words each list has, and where an extended schedule
keeps the words it started from. -/

namespace Sys2Proof.Machine

@[simp] theorem kList_length : kList.length = 64 := rfl

@[simp] theorem kRom_toList : kRom.toList = kList := rfl

@[simp] theorem bytesBE_length {w : Nat} (v : BitVec w) (n : Nat) : (bytesBE v n).length = n := by
  simp [bytesBE]

theorem bytesBE_getElem {w : Nat} (v : BitVec w) (n k : Nat) (hk : k < (bytesBE v n).length) :
    (bytesBE v n)[k] = v.extractLsb' (8 * (n - 1 - k)) 8 := by
  simp [bytesBE]

/-- A block of `4n` bytes gives `n` words. -/
theorem blockWords_length (n : Nat) (blk : List Byte) (h : blk.length = 4 * n) :
    (blockWords blk).length = n := by
  induction n generalizing blk with
  | zero => simp [List.length_eq_zero_iff.1 h, blockWords]
  | succ n ih =>
    match blk, h with
    | _ :: _ :: _ :: _ :: rest, h => simp [blockWords, ih rest (by simp at h; omega)]

/-- Word `j` of a block is made of its bytes `4j..4j+3` (R110). -/
theorem blockWords_getD (n j : Nat) (blk : List Byte) (h : blk.length = 4 * n) (hj : j < n) :
    (blockWords blk).getD j 0 =
      be32 (blk.getD (4 * j) 0) (blk.getD (4 * j + 1) 0) (blk.getD (4 * j + 2) 0)
        (blk.getD (4 * j + 3) 0) := by
  induction n generalizing blk j with
  | zero => omega
  | succ n ih =>
    match blk, h with
    | _ :: _ :: _ :: _ :: rest, h =>
      cases j with
      | zero => rfl
      | succ j =>
        have := ih j rest (by simp at h; omega) (by omega)
        simpa [blockWords, Nat.mul_add] using this

@[simp] theorem extendSchedule_length (n : Nat) (w : List Word) :
    (extendSchedule n w).length = w.length + n := by
  induction n generalizing w with
  | zero => rfl
  | succ n ih => simp [extendSchedule, ih]; omega

/-- Extending a schedule keeps the words it has. -/
theorem extendSchedule_prefix (n : Nat) (w : List Word) : w <+: extendSchedule n w := by
  induction n generalizing w with
  | zero => exact List.prefix_rfl
  | succ n ih => exact (List.prefix_append w [nextWord w]).trans (ih _)

/-- Extending by `m + n` words is extending by `m` and then by `n`. -/
theorem extendSchedule_add (m n : Nat) (w : List Word) :
    extendSchedule (m + n) w = extendSchedule n (extendSchedule m w) := by
  induction m generalizing w with
  | zero => simp [extendSchedule]
  | succ m ih => rw [Nat.succ_add, extendSchedule, ih, extendSchedule]

theorem extendSchedule_succ (n : Nat) (w : List Word) :
    extendSchedule (n + 1) w = extendSchedule n w ++ [nextWord (extendSchedule n w)] :=
  extendSchedule_add n 1 w

/-- A block of 64 bytes has a schedule of 64 words. -/
theorem schedule_length (blk : List Byte) (h : blk.length = 64) : (schedule blk).length = 64 := by
  simp [schedule, blockWords_length 16 blk h]

/-- Rounds over a list of constants and words. -/
theorem runRounds_eq (v : WorkVars) (w : List Word) :
    runRounds v w = (kList.zip w).foldl (fun v kw => oneRound v kw.1 kw.2) v := rfl

end Sys2Proof.Machine
end

