-- ==== Sys2Proof/Laws/Memory.lean ====
section
/-! SUPPORT. The laws of `BUF` (spec/00_scope.md R13, spec/20_memory.md R50): a read after a write, and the
canonical form, which every write keeps. -/

namespace Sys2Proof.Machine

@[simp] theorem Memory.read_nil (a : Nat) : Memory.read [] a = 0 := rfl

theorem Memory.read_filter_ne (m : Memory) (a a' : Nat) :
    Memory.read (m.filter fun c => c.1 != a) a' = if a' = a then 0 else m.read a' := by
  induction m with
  | nil => simp
  | cons c m ih =>
    by_cases hc : c.1 = a
    · rw [List.filter_cons_of_neg (by simpa using hc), ih]
      by_cases ha : a' = a
      · simp [ha]
      · simp [Memory.read, ha, show c.1 ≠ a' from fun h => ha (h.symm.trans hc)]
    · rw [List.filter_cons_of_pos (by simpa using hc)]
      by_cases ha : a' = a
      · subst ha; simp [Memory.read, hc, ih]
      · simp [Memory.read, ha, ih]

theorem Memory.read_insert (m : Memory) (a a' : Nat) (b : Byte) (hm : ∀ c ∈ m, c.1 ≠ a) :
    (Memory.insert (a, b) m).read a' = if a' = a then b else m.read a' := by
  induction m with
  | nil => simp [Memory.insert, Memory.read, eq_comm]
  | cons c m ih =>
    have ih := ih fun d hd => hm d (List.mem_cons_of_mem _ hd)
    have hc : c.1 ≠ a := hm c List.mem_cons_self
    simp only [Memory.insert]
    split
    · simp [Memory.read, eq_comm]
    · by_cases ha : a' = a
      · subst ha; simp [Memory.read, hc, ih]
      · simp [Memory.read, ha, ih]

/-- Reading after a write: the byte written at its index, every other index as before. -/
@[simp] theorem Memory.read_write (m : Memory) (a a' : Nat) (b : Byte) :
    (m.write a b).read a' = if a' = a then b else m.read a' := by
  unfold Memory.write
  split
  · next h => rw [Memory.read_filter_ne, h]
  · rw [Memory.read_insert _ _ _ _ (by simp), Memory.read_filter_ne]
    split <;> rfl

@[simp] theorem Memory.length_readBytes (m : Memory) (i n : Nat) : (m.readBytes i n).length = n := by
  simp [Memory.readBytes]

theorem Memory.getElem_readBytes (m : Memory) (i n k : Nat) (hk : k < (m.readBytes i n).length) :
    (m.readBytes i n)[k] = m.read (i + k) := by
  simp [Memory.readBytes]

/-- Reading after a byte sequence is stored from index `i` on. -/
theorem Memory.read_writeBytes (bs : List Byte) (m : Memory) (i a : Nat) :
    (m.writeBytes i bs).read a =
      if i ≤ a ∧ a < i + bs.length then bs.getD (a - i) 0 else m.read a := by
  induction bs generalizing m i with
  | nil => rw [Memory.writeBytes, if_neg (by simp)]
  | cons b bs ih =>
    rw [Memory.writeBytes, ih, Memory.read_write]
    by_cases h1 : a = i
    · subst h1; rw [if_neg (by omega), if_pos rfl, if_pos (by simp)]; simp
    · by_cases h2 : i + 1 ≤ a ∧ a < i + 1 + bs.length
      · have : a - i = (a - (i + 1)) + 1 := by omega
        rw [if_pos h2, if_pos (by simp; omega), this, List.getD_cons_succ]
      · rw [if_neg h2, if_neg h1, if_neg (by simp only [List.length_cons]; omega)]

/-- Two buffers that read the same give the same bytes. -/
theorem Memory.readBytes_congr {m m' : Memory} {i n : Nat}
    (h : ∀ a, i ≤ a → a < i + n → m.read a = m'.read a) : m.readBytes i n = m'.readBytes i n := by
  apply List.map_congr_left
  intro a ha
  rw [List.mem_range'_1] at ha
  exact h a ha.1 (by omega)

theorem Memory.readBytes_succ (m : Memory) (i n : Nat) :
    m.readBytes i (n + 1) = m.readBytes i n ++ [m.read (i + n)] := by
  simp [Memory.readBytes, List.range'_concat]

/-- The canonical form, clause by clause. -/
theorem Memory.wf_iff {m : Memory} :
    m.wf = true ↔ m.Pairwise (fun c d => c.1 < d.1) ∧ ∀ c ∈ m, c.1 < 64 ∧ c.2 ≠ 0 := by
  simp [Memory.wf, Config.unlistedByte]

theorem Memory.mem_insert {m : Memory} {c d : Host.Cell} :
    d ∈ Memory.insert c m ↔ d = c ∨ d ∈ m := by
  induction m with
  | nil => simp [Memory.insert]
  | cons e m ih =>
    simp only [Memory.insert]
    split
    · simp
    · simp only [List.mem_cons, ih]; tauto

theorem Memory.pairwise_insert {m : Memory} {c : Host.Cell} (h : m.Pairwise fun d e => d.1 < e.1)
    (hc : ∀ d ∈ m, d.1 ≠ c.1) : (Memory.insert c m).Pairwise fun d e => d.1 < e.1 := by
  induction m with
  | nil => simp [Memory.insert]
  | cons e m ih =>
    have hm := List.pairwise_cons.1 h
    have he : e.1 ≠ c.1 := hc e List.mem_cons_self
    simp only [Memory.insert]
    split
    · next hlt =>
      refine List.pairwise_cons.2 ⟨fun d hd => ?_, h⟩
      rcases List.mem_cons.1 hd with rfl | hd
      · exact hlt
      · exact hlt.trans (hm.1 d hd)
    · next hlt =>
      refine List.pairwise_cons.2 ⟨fun d hd => ?_, ih hm.2 fun d hd => hc d (List.mem_cons_of_mem _ hd)⟩
      rcases Memory.mem_insert.1 hd with rfl | hd
      · omega
      · exact hm.1 d hd

/-- A write inside `BUF` keeps the canonical form. -/
theorem Memory.wf_write {m : Memory} {a : Nat} (b : Byte) (h : m.wf = true) (ha : a < 64) :
    (m.write a b).wf = true := by
  rw [Memory.wf_iff] at h ⊢
  have hp : (m.filter fun c => c.1 != a).Pairwise fun c d => c.1 < d.1 := h.1.filter _
  have hall : ∀ c ∈ m.filter (fun c => c.1 != a), c.1 < 64 ∧ c.2 ≠ 0 := fun c hc =>
    h.2 c (List.mem_filter.1 hc).1
  unfold Memory.write
  split
  · exact ⟨hp, hall⟩
  · next hb =>
    refine ⟨Memory.pairwise_insert hp (by simp), fun c hc => ?_⟩
    rcases Memory.mem_insert.1 hc with rfl | hc
    · exact ⟨ha, hb⟩
    · exact hall c hc

theorem Memory.wf_writeBytes {bs : List Byte} {m : Memory} {i : Nat} (h : m.wf = true)
    (hi : i + bs.length ≤ 64) : (m.writeBytes i bs).wf = true := by
  induction bs generalizing m i with
  | nil => exact h
  | cons b bs ih =>
    simp only [List.length_cons] at hi
    exact ih (Memory.wf_write b h (by omega)) (by omega)

theorem Memory.wf_writeZeros {m : Memory} {i n : Nat} (h : m.wf = true) (hi : i + n ≤ 64) :
    (m.writeBytes i (List.replicate n 0)).wf = true :=
  Memory.wf_writeBytes h (by simpa using hi)

@[simp] theorem Memory.wf_nil : Memory.wf [] = true := rfl

/-- `MemRead` inside the bound of R13. -/
theorem memRead_of_le {m : Memory} {i n : Nat} (h : i + n ≤ 64) : memRead m i n = .ok (m.readBytes i n) :=
  if_pos h

/-- `MemWrite` inside the bound of R13. -/
theorem memWrite_of_le {m : Memory} {i : Nat} {bs : List Byte} (h : i + bs.length ≤ 64) :
    memWrite m i bs = .ok (m.writeBytes i bs) := if_pos h

/-- An access outside `BUF` faults by name (R13, R50). -/
theorem memRead_of_gt {m : Memory} {i n : Nat} (h : 64 < i + n) : memRead m i n = .error (.bufIndex i n) :=
  if_neg (by simp [Config.blockBytes]; omega)

theorem memWrite_of_gt {m : Memory} {i : Nat} {bs : List Byte} (h : 64 < i + bs.length) :
    memWrite m i bs = .error (.bufIndex i bs.length) := if_neg (by simp [Config.blockBytes]; omega)

/-- What a `MemWrite` can do: store the bytes inside the bound, and keep the canonical form. -/
theorem memWrite_ok {m m' : Memory} {i : Nat} {bs : List Byte} (h : memWrite m i bs = .ok m') :
    i + bs.length ≤ 64 ∧ m' = m.writeBytes i bs ∧ (m.wf = true → m'.wf = true) := by
  unfold memWrite at h
  split at h
  · next hb =>
    cases h
    exact ⟨hb, rfl, fun hm => Memory.wf_writeBytes hm hb⟩
  · cases h

/-- Zeroing `i..j` inside `BUF`. -/
theorem memZero_of_le {m : Memory} {i j : Nat} (hi : i ≤ 64) (hj : j < 64) :
    memZero m i j = .ok (m.writeBytes i (List.replicate (j + 1 - i) 0)) :=
  memWrite_of_le (by simp; omega)

/-- What a byte reads as after `i..j` is zeroed. -/
theorem Memory.read_writeZeros (m : Memory) (i j a : Nat) :
    (m.writeBytes i (List.replicate (j + 1 - i) 0)).read a = if i ≤ a ∧ a ≤ j then 0 else m.read a := by
  rw [Memory.read_writeBytes]
  simp only [List.length_replicate]
  by_cases h : i ≤ a ∧ a ≤ j
  · rw [if_pos (by omega), if_pos h, List.getD_replicate]; omega
  · rw [if_neg (by omega), if_neg h]

end Sys2Proof.Machine
end

