-- ==== Sys2Proof/Laws/State.lean ====
section
/-! SUPPORT. One lemma per field per state update, true by `rfl`, and the small facts of the flags: later
proofs read a field through these and do not unfold an update. -/

namespace Sys2Proof.Machine

section raiseFields
variable (e : EngineError) (s : State)
@[simp] theorem raise_h : (raise e s).h = s.h := rfl
@[simp] theorem raise_buf : (raise e s).buf = s.buf := rfl
@[simp] theorem raise_buflen : (raise e s).buflen = s.buflen := rfl
@[simp] theorem raise_tbl : (raise e s).tbl = s.tbl := rfl
@[simp] theorem raise_fin : (raise e s).fin = s.fin := rfl
@[simp] theorem raise_errcode : (raise e s).errcode = if s.errcode = .none then e.code else s.errcode := rfl
@[simp] theorem raise_dg : (raise e s).dg = s.dg := rfl
@[simp] theorem raise_erred : (raise e s).erred = true := rfl
@[simp] theorem raise_pins : (raise e s).pins = s.pins := rfl
@[simp] theorem raise_held : (raise e s).held = s.held := rfl
@[simp] theorem raise_busy : (raise e s).busy = s.busy := rfl
@[simp] theorem raise_latency : (raise e s).latency = s.latency := rfl
@[simp] theorem raise_freeCount : (raise e s).freeCount = s.freeCount := rfl
end raiseFields

section loadInitialFields
variable (s : State)
@[simp] theorem loadInitial_h : (loadInitial s).h = h0Rom := rfl
@[simp] theorem loadInitial_buf : (loadInitial s).buf = s.buf := rfl
@[simp] theorem loadInitial_buflen : (loadInitial s).buflen = 0 := rfl
@[simp] theorem loadInitial_tbl : (loadInitial s).tbl = 0 := rfl
@[simp] theorem loadInitial_fin : (loadInitial s).fin = false := rfl
@[simp] theorem loadInitial_errcode : (loadInitial s).errcode = .none := rfl
@[simp] theorem loadInitial_dg : (loadInitial s).dg = zeroDigest := rfl
@[simp] theorem loadInitial_erred : (loadInitial s).erred = s.erred := rfl
@[simp] theorem loadInitial_pins : (loadInitial s).pins = s.pins := rfl
@[simp] theorem loadInitial_held : (loadInitial s).held = s.held := rfl
@[simp] theorem loadInitial_busy : (loadInitial s).busy = s.busy := rfl
@[simp] theorem loadInitial_latency : (loadInitial s).latency = s.latency := rfl
@[simp] theorem loadInitial_freeCount : (loadInitial s).freeCount = s.freeCount := rfl
end loadInitialFields

section takePinsFields
variable (s : State)
@[simp] theorem takePins_h : (takePins s).h = s.h := rfl
@[simp] theorem takePins_buf : (takePins s).buf = s.buf := rfl
@[simp] theorem takePins_buflen : (takePins s).buflen = s.buflen := rfl
@[simp] theorem takePins_tbl : (takePins s).tbl = s.tbl := rfl
@[simp] theorem takePins_fin : (takePins s).fin = s.fin := rfl
@[simp] theorem takePins_errcode : (takePins s).errcode = s.errcode := rfl
@[simp] theorem takePins_dg : (takePins s).dg = s.dg := rfl
@[simp] theorem takePins_erred : (takePins s).erred = s.erred := rfl
@[simp] theorem takePins_pins : (takePins s).pins = s.pins.tail := rfl
@[simp] theorem takePins_held : (takePins s).held = s.held := rfl
@[simp] theorem takePins_busy : (takePins s).busy = s.busy := rfl
@[simp] theorem takePins_latency : (takePins s).latency = s.latency := rfl
@[simp] theorem takePins_freeCount : (takePins s).freeCount = s.freeCount := rfl
end takePinsFields

section startBusyFields
variable (s : State)
@[simp] theorem startBusy_h : (startBusy s).h = s.h := rfl
@[simp] theorem startBusy_buf : (startBusy s).buf = s.buf := rfl
@[simp] theorem startBusy_buflen : (startBusy s).buflen = s.buflen := rfl
@[simp] theorem startBusy_tbl : (startBusy s).tbl = s.tbl := rfl
@[simp] theorem startBusy_fin : (startBusy s).fin = s.fin := rfl
@[simp] theorem startBusy_errcode : (startBusy s).errcode = s.errcode := rfl
@[simp] theorem startBusy_dg : (startBusy s).dg = s.dg := rfl
@[simp] theorem startBusy_erred : (startBusy s).erred = s.erred := rfl
@[simp] theorem startBusy_pins : (startBusy s).pins = s.pins := rfl
@[simp] theorem startBusy_held : (startBusy s).held = s.held := rfl
@[simp] theorem startBusy_busy : (startBusy s).busy = s.latency.headD 0 := rfl
@[simp] theorem startBusy_latency : (startBusy s).latency = s.latency.tail := rfl
@[simp] theorem startBusy_freeCount : (startBusy s).freeCount = s.freeCount := rfl
end startBusyFields

section acceptStateFields
variable (s : State)
@[simp] theorem acceptState_h : (acceptState s).h = s.h := rfl
@[simp] theorem acceptState_buf : (acceptState s).buf = s.buf := rfl
@[simp] theorem acceptState_buflen : (acceptState s).buflen = s.buflen := rfl
@[simp] theorem acceptState_tbl : (acceptState s).tbl = s.tbl := rfl
@[simp] theorem acceptState_fin : (acceptState s).fin = s.fin := rfl
@[simp] theorem acceptState_errcode : (acceptState s).errcode = s.errcode := rfl
@[simp] theorem acceptState_dg : (acceptState s).dg = s.dg := rfl
@[simp] theorem acceptState_erred : (acceptState s).erred = s.erred := rfl
@[simp] theorem acceptState_pins : (acceptState s).pins = s.pins.tail := rfl
@[simp] theorem acceptState_held : (acceptState s).held = none := rfl
@[simp] theorem acceptState_busy : (acceptState s).busy = s.busy := rfl
@[simp] theorem acceptState_latency : (acceptState s).latency = s.latency := rfl
@[simp] theorem acceptState_freeCount : (acceptState s).freeCount = s.freeCount := rfl
end acceptStateFields

section busyEdgeFields
variable (p : Pins) (s : State)
@[simp] theorem busyEdge_h : (busyEdge p s).h = s.h := rfl
@[simp] theorem busyEdge_buf : (busyEdge p s).buf = s.buf := rfl
@[simp] theorem busyEdge_buflen : (busyEdge p s).buflen = s.buflen := rfl
@[simp] theorem busyEdge_tbl : (busyEdge p s).tbl = s.tbl := rfl
@[simp] theorem busyEdge_fin : (busyEdge p s).fin = s.fin := rfl
@[simp] theorem busyEdge_errcode : (busyEdge p s).errcode = s.errcode := rfl
@[simp] theorem busyEdge_dg : (busyEdge p s).dg = s.dg := rfl
@[simp] theorem busyEdge_erred : (busyEdge p s).erred = s.erred := rfl
@[simp] theorem busyEdge_pins : (busyEdge p s).pins = s.pins.tail := rfl
@[simp] theorem busyEdge_held : (busyEdge p s).held = p.word := rfl
@[simp] theorem busyEdge_busy : (busyEdge p s).busy = s.busy - 1 := rfl
@[simp] theorem busyEdge_latency : (busyEdge p s).latency = s.latency := rfl
@[simp] theorem busyEdge_freeCount : (busyEdge p s).freeCount = s.freeCount + 1 := rfl
end busyEdgeFields

section resetEdgeFields
variable (p : Pins) (s : State)
@[simp] theorem resetEdge_h : (resetEdge p s).h = h0Rom := rfl
@[simp] theorem resetEdge_buf : (resetEdge p s).buf = [] := rfl
@[simp] theorem resetEdge_buflen : (resetEdge p s).buflen = 0 := rfl
@[simp] theorem resetEdge_tbl : (resetEdge p s).tbl = 0 := rfl
@[simp] theorem resetEdge_fin : (resetEdge p s).fin = false := rfl
@[simp] theorem resetEdge_errcode : (resetEdge p s).errcode = .none := rfl
@[simp] theorem resetEdge_dg : (resetEdge p s).dg = zeroDigest := rfl
@[simp] theorem resetEdge_erred : (resetEdge p s).erred = false := rfl
@[simp] theorem resetEdge_pins : (resetEdge p s).pins = s.pins.tail := rfl
@[simp] theorem resetEdge_held : (resetEdge p s).held = p.word := rfl
@[simp] theorem resetEdge_busy : (resetEdge p s).busy = s.latency.headD 0 := rfl
@[simp] theorem resetEdge_latency : (resetEdge p s).latency = s.latency.tail := rfl
@[simp] theorem resetEdge_freeCount : (resetEdge p s).freeCount = s.freeCount + 1 := rfl
end resetEdgeFields

theorem EngineError.code_ne_none (e : EngineError) : e.code ≠ .none := by cases e <;> decide

@[simp] theorem locked_eq_false {s : State} : locked s = false ↔ s.errcode = .none := by
  simp [locked]

@[simp] theorem locked_eq_true {s : State} : locked s = true ↔ s.errcode ≠ .none := by
  simp [locked]

@[simp] theorem cmdReady_eq_true {s : State} : cmdReady s = true ↔ s.busy = 0 := by
  simp [cmdReady]

@[simp] theorem cmdReady_eq_false {s : State} : cmdReady s = false ↔ s.busy ≠ 0 := by
  simp [cmdReady]

@[simp] theorem present_rst (w : CmdWord) : (Pins.present w).rst = false := rfl

@[simp] theorem present_cmdValid (w : CmdWord) : (Pins.present w).cmdValid = true := rfl

@[simp] theorem present_cmd (w : CmdWord) : (Pins.present w).cmd = w := rfl

@[simp] theorem present_word (w : CmdWord) : (Pins.present w).word = some w := rfl

@[simp] theorem idle_rst : Pins.idle.rst = false := rfl

@[simp] theorem idle_cmdValid : Pins.idle.cmdValid = false := rfl

@[simp] theorem idle_word : Pins.idle.word = none := rfl

@[simp] theorem stable_none (p : Pins) : p.stable none = true := rfl

/-- With a word held, a stable edge presents it again (R234). -/
theorem stable_some {w : CmdWord} {p : Pins} : p.stable (some w) = true ↔ p.cmdValid = true ∧ p.cmd = w := by
  simp [Pins.stable]

end Sys2Proof.Machine
end

