-- ==== Sys2Proof/Laws/Commands.lean ====
section
/-! SUPPORT. What each shared operation of the commands does, said once: every access meets the bound of
R13, so each answers a state. -/

namespace Sys2Proof.Machine

@[simp] theorem finish_ok (s : State) : finish (.ok s) = .next s := rfl

theorem compressBuf_eq (s : State) :
    compressBuf s = .ok { s with h := compress s.h (s.buf.readBytes 0 64) } := rfl

theorem blockTrigger_eq (s : State) :
    blockTrigger s =
      .ok { s with h := compress s.h (s.buf.readBytes 0 64), tbl := s.tbl + 512, buflen := 0 } := rfl

/-- The state UPDATE leaves once its checks pass (R143, R144). -/
def absorbed (b : Byte) (s : State) : State :=
  if s.buflen = 63 then
    { s with
      buf := s.buf.write s.buflen.toNat b
      h := compress s.h ((s.buf.write s.buflen.toNat b).readBytes 0 64)
      tbl := s.tbl + 512
      buflen := 0 }
  else { s with buf := s.buf.write s.buflen.toNat b, buflen := s.buflen + 1 }

theorem absorb_eq (b : Byte) (s : State) : absorb b s = .ok (absorbed b s) := by
  have hn := s.buflen.isLt
  unfold absorb absorbed
  rw [memWrite_of_le (by simp only [List.length_singleton]; omega)]
  simp only [Memory.writeBytes, bind, Except.bind]
  split <;> rfl

/-- The buffer with the marker at `n` and zeros at `n+1..j` (R171 to R173). -/
def paddedBuf (m : Memory) (n j : Nat) : Memory :=
  (m.writeBytes n [0x80]).writeBytes (n + 1) (List.replicate (j + 1 - (n + 1)) 0)

/-- The state with the tail padded up to the length field (R171 to R173). -/
def padded (s : State) : State :=
  if s.buflen.toNat < 56 then { s with buf := paddedBuf s.buf s.buflen.toNat 55 }
  else
    { s with
      buf := (paddedBuf s.buf s.buflen.toNat 63).writeBytes 0 (List.replicate (55 + 1 - 0) 0)
      h := compress s.h ((paddedBuf s.buf s.buflen.toNat 63).readBytes 0 64) }

theorem padTail_eq (s : State) : padTail s.buflen.toNat s = .ok (padded s) := by
  have hn := s.buflen.isLt
  unfold padTail padded
  rw [memWrite_of_le (by simp only [List.length_singleton]; omega)]
  simp only [bind, Except.bind, Config.lenFieldOffset]
  split
  · rw [memZero_of_le (by omega) (by omega)]; rfl
  · rw [memZero_of_le (by omega) (by omega)]; rfl

/-- The last block with its length field (R175). -/
def lastBuf (s : State) : Memory := (padded s).buf.writeBytes 56 (bytesBE (messageBits s) 8)

/-- The state FINALIZE leaves once its checks pass (R170 to R178). -/
def finalized (s : State) : State :=
  { padded s with
    buf := lastBuf s
    h := compress (padded s).h ((lastBuf s).readBytes 0 64)
    dg := serialize (compress (padded s).h ((lastBuf s).readBytes 0 64))
    fin := true
    buflen := 0
    tbl := messageBits s }

theorem finalizeContext_eq (s : State) : finalizeContext s = .ok (finalized s) := by
  unfold finalizeContext
  simp only [padTail_eq, bind, Except.bind]
  rw [memWrite_of_le (by simp)]
  rfl

section absorbedFields
variable (b : Byte) (s : State)

@[simp] theorem absorbed_fin : (absorbed b s).fin = s.fin := by unfold absorbed; split <;> rfl
@[simp] theorem absorbed_errcode : (absorbed b s).errcode = s.errcode := by
  unfold absorbed; split <;> rfl
@[simp] theorem absorbed_dg : (absorbed b s).dg = s.dg := by unfold absorbed; split <;> rfl
@[simp] theorem absorbed_erred : (absorbed b s).erred = s.erred := by unfold absorbed; split <;> rfl
@[simp] theorem absorbed_pins : (absorbed b s).pins = s.pins := by unfold absorbed; split <;> rfl
@[simp] theorem absorbed_held : (absorbed b s).held = s.held := by unfold absorbed; split <;> rfl
@[simp] theorem absorbed_busy : (absorbed b s).busy = s.busy := by unfold absorbed; split <;> rfl
@[simp] theorem absorbed_latency : (absorbed b s).latency = s.latency := by
  unfold absorbed; split <;> rfl
@[simp] theorem absorbed_freeCount : (absorbed b s).freeCount = s.freeCount := by
  unfold absorbed; split <;> rfl
@[simp] theorem absorbed_buf : (absorbed b s).buf = s.buf.write s.buflen.toNat b := by
  unfold absorbed; split <;> rfl

end absorbedFields

section paddedFields
variable (s : State)

@[simp] theorem padded_errcode : (padded s).errcode = s.errcode := by unfold padded; split <;> rfl
@[simp] theorem padded_erred : (padded s).erred = s.erred := by unfold padded; split <;> rfl
@[simp] theorem padded_pins : (padded s).pins = s.pins := by unfold padded; split <;> rfl
@[simp] theorem padded_held : (padded s).held = s.held := by unfold padded; split <;> rfl
@[simp] theorem padded_busy : (padded s).busy = s.busy := by unfold padded; split <;> rfl
@[simp] theorem padded_latency : (padded s).latency = s.latency := by unfold padded; split <;> rfl
@[simp] theorem padded_freeCount : (padded s).freeCount = s.freeCount := by
  unfold padded; split <;> rfl

end paddedFields

section finalizedFields
variable (s : State)

@[simp] theorem finalized_buf : (finalized s).buf = lastBuf s := rfl
@[simp] theorem finalized_h :
    (finalized s).h = compress (padded s).h ((lastBuf s).readBytes 0 64) := rfl
@[simp] theorem finalized_dg : (finalized s).dg = serialize (finalized s).h := rfl
@[simp] theorem finalized_fin : (finalized s).fin = true := rfl
@[simp] theorem finalized_buflen : (finalized s).buflen = 0 := rfl
@[simp] theorem finalized_tbl : (finalized s).tbl = messageBits s := rfl
@[simp] theorem finalized_errcode : (finalized s).errcode = s.errcode := padded_errcode s
@[simp] theorem finalized_erred : (finalized s).erred = s.erred := padded_erred s
@[simp] theorem finalized_pins : (finalized s).pins = s.pins := padded_pins s
@[simp] theorem finalized_held : (finalized s).held = s.held := padded_held s
@[simp] theorem finalized_busy : (finalized s).busy = s.busy := padded_busy s
@[simp] theorem finalized_latency : (finalized s).latency = s.latency := padded_latency s
@[simp] theorem finalized_freeCount : (finalized s).freeCount = s.freeCount := padded_freeCount s

end finalizedFields

/-- UPDATE, with its checks (R143, R208). -/
theorem exec_update (b : Byte) (s : State) :
    exec (.update b) s = .next
      (if s.errcode ≠ .none then s
      else if s.fin then raise .misuse s
      else if 2 ^ 64 ≤ s.tbl.toNat + 8 * (s.buflen.toNat + 1) then raise .inputTooLarge s
      else absorbed b s) := by
  simp only [exec, execUpdate, absorb_eq, messageByte, finish_ok, tooLarge, locked_eq_true,
    decide_eq_true_eq]
  split_ifs <;> rfl

/-- FINALIZE, with its checks (R170, R208). -/
theorem exec_finalize (s : State) :
    exec .finalize s = .next
      (if s.errcode ≠ .none then s else if s.fin then raise .misuse s else finalized s) := by
  simp only [exec, execFinalize, finalizeContext_eq, finish_ok, locked_eq_true]
  split_ifs <;> rfl

@[simp] theorem exec_nop (s : State) : exec .nop s = .next s := rfl

@[simp] theorem exec_init (s : State) : exec .init s = .next (loadInitial s) := rfl

theorem execute_of_ok {w : CmdWord} {i : Instr} (h : decode w = .ok i) (s : State) :
    execute w s = exec i s := by
  simp [execute, h]

theorem execute_of_error {w : CmdWord} {e : Illegal} (h : decode w = .error e) (s : State) :
    execute w s = .next (raise .illegalCommand s) := by
  simp [execute, h, execIllegal]

/-- Everything an accepted word can do: one of these cases holds (R140, R208). -/
theorem execute_cases {w : CmdWord} {s t : State} (h : execute w s = .next t) :
    (∃ e, decode w = .error e ∧ t = raise .illegalCommand s) ∨
    (decode w = .ok .nop ∧ t = s) ∨
    (decode w = .ok .init ∧ t = loadInitial s) ∨
    ((decode w = .ok .finalize ∨ ∃ b, decode w = .ok (.update b)) ∧ s.errcode ≠ .none ∧ t = s) ∨
    ((decode w = .ok .finalize ∨ ∃ b, decode w = .ok (.update b)) ∧ s.errcode = .none ∧
      s.fin = true ∧ t = raise .misuse s) ∨
    (∃ b, decode w = .ok (.update b) ∧ s.errcode = .none ∧ s.fin = false ∧
      2 ^ 64 ≤ s.tbl.toNat + 8 * (s.buflen.toNat + 1) ∧ t = raise .inputTooLarge s) ∨
    (∃ b, decode w = .ok (.update b) ∧ s.errcode = .none ∧ s.fin = false ∧
      s.tbl.toNat + 8 * (s.buflen.toNat + 1) < 2 ^ 64 ∧ t = absorbed b s) ∨
    (decode w = .ok .finalize ∧ s.errcode = .none ∧ s.fin = false ∧ t = finalized s) := by
  cases hd : decode w with
  | error e =>
    rw [execute_of_error hd] at h
    cases h
    exact .inl ⟨e, rfl, rfl⟩
  | ok i =>
    rw [execute_of_ok hd] at h
    cases i with
    | nop => cases h; simp
    | init => cases h; simp
    | update b =>
      rw [exec_update] at h
      cases h
      split_ifs <;> simp_all
    | finalize =>
      rw [exec_finalize] at h
      cases h
      split_ifs <;> simp_all

/-! ### The fields of `absorbed` and `finalized` in full -/

theorem buflen_eq_63 {s : State} : s.buflen = 63 ↔ s.buflen.toNat = 63 := by
  constructor
  · intro h; rw [h]; rfl
  · intro h; apply BitVec.eq_of_toNat_eq; rw [h]; rfl

/-- The fill count goes up by one, short of the 64th byte. -/
theorem buflen_succ {s : State} (h : s.buflen.toNat < 63) :
    (s.buflen + 1).toNat = s.buflen.toNat + 1 := by
  rw [BitVec.toNat_add]; simp; omega

/-- `add64(TBL, 512)` does not wrap past the length check (R144). -/
theorem tbl_add_512 {s : State} (h : s.tbl.toNat + 512 < 2 ^ 64) :
    (s.tbl + 512).toNat = s.tbl.toNat + 512 := by
  rw [BitVec.toNat_add]; simp; omega

theorem absorbed_of_lt (b : Byte) {s : State} (h : s.buflen.toNat < 63) :
    absorbed b s = { s with buf := s.buf.write s.buflen.toNat b, buflen := s.buflen + 1 } := by
  rw [absorbed, if_neg (by rw [buflen_eq_63]; omega)]

theorem absorbed_of_eq (b : Byte) {s : State} (h : s.buflen.toNat = 63) :
    absorbed b s = { s with
      buf := s.buf.write s.buflen.toNat b
      h := compress s.h ((s.buf.write s.buflen.toNat b).readBytes 0 64)
      tbl := s.tbl + 512
      buflen := 0 } := by
  rw [absorbed, if_pos (buflen_eq_63.2 h)]

/-- The bytes of the length field, one by one (R54). -/
theorem getD_lengthBytes (len : BitLength) {a : Nat} (h : 56 ≤ a) (h' : a < 64) :
    (bytesBE len 8).getD (a - 56) 0 = len.extractLsb' (8 * (63 - a)) 8 := by
  rw [List.getD_eq_getElem _ _ (by simp; omega), bytesBE_getElem]
  congr 2
  omega

theorem read_paddedBuf (m : Memory) (n j a : Nat) :
    (paddedBuf m n j).read a =
      if n + 1 ≤ a ∧ a ≤ j then 0 else if a = n then 0x80 else m.read a := by
  rw [paddedBuf, Memory.read_writeZeros, Memory.read_writeBytes]
  by_cases h : a = n
  · subst h; simp
  · simp only [List.length_singleton, if_neg (show ¬(n ≤ a ∧ a < n + 1) by omega), if_neg h]

theorem read_lastBuf (s : State) (a : Nat) :
    (lastBuf s).read a =
      if 56 ≤ a ∧ a < 64 then (messageBits s).extractLsb' (8 * (63 - a)) 8
      else (padded s).buf.read a := by
  rw [lastBuf, Memory.read_writeBytes]
  simp only [bytesBE_length]
  by_cases h : 56 ≤ a ∧ a < 56 + 8
  · rw [if_pos h, if_pos h, getD_lengthBytes _ h.1 h.2]
  · rw [if_neg h, if_neg h]

theorem padded_of_lt {s : State} (h : s.buflen.toNat < 56) :
    padded s = { s with buf := paddedBuf s.buf s.buflen.toNat 55 } := by
  rw [padded, if_pos h]

theorem padded_of_ge {s : State} (h : 56 ≤ s.buflen.toNat) :
    padded s = { s with
      buf := (paddedBuf s.buf s.buflen.toNat 63).writeBytes 0 (List.replicate (55 + 1 - 0) 0)
      h := compress s.h ((paddedBuf s.buf s.buflen.toNat 63).readBytes 0 64) } := by
  rw [padded, if_neg (by omega)]

/-- The length sum is exact wherever it fits 64 bits (R174). -/
theorem messageBits_toNat {s : State} (h : s.tbl.toNat + 8 * s.buflen.toNat < 2 ^ 64) :
    (messageBits s).toNat = s.tbl.toNat + 8 * s.buflen.toNat := by
  rw [messageBits, BitVec.toNat_add, BitVec.toNat_ofNat]
  omega

theorem wf_paddedBuf {m : Memory} {n j : Nat} (h : m.wf = true) (hn : n < 64) (hj : j < 64) :
    (paddedBuf m n j).wf = true :=
  Memory.wf_writeZeros (Memory.wf_writeBytes h (by simp; omega)) (by omega)

/-- FINALIZE keeps the canonical form of `BUF`. -/
theorem wf_lastBuf {s : State} (h : s.buf.wf = true) : (lastBuf s).wf = true := by
  have hn := s.buflen.isLt
  refine Memory.wf_writeBytes ?_ (by simp)
  by_cases h56 : s.buflen.toNat < 56
  · rw [padded_of_lt h56]
    exact wf_paddedBuf h (by omega) (by omega)
  · have hb : (padded s).buf =
        (paddedBuf s.buf s.buflen.toNat 63).writeBytes 0 (List.replicate (55 + 1 - 0) 0) := by
      rw [padded_of_ge (by omega)]
    have hp : (paddedBuf s.buf s.buflen.toNat 63).wf = true :=
      wf_paddedBuf h (by omega) (by omega)
    rw [hb]
    generalize paddedBuf s.buf s.buflen.toNat 63 = m at hp
    generalize hk : 55 + 1 - 0 = k
    exact Memory.wf_writeZeros hp (by omega)

end Sys2Proof.Machine
end

