-- ==== Sys2Proof/Laws/PerInstr.lean ====
section
/-! SUPPORT. Statements about every command as syntax, one lemma a constructor. Family `LegalFields`: the
word of a command has the command's fields, and they are well formed (R72, R77). -/

namespace Sys2Proof.Laws.LegalFields

/-- The fields of the command's word are the command's, and legal. -/
def Statement (i : Instr) : Prop := CmdFields.ofWord (encode i) = i.fields ∧ i.wf = true

theorem nop : Statement .nop := ⟨rfl, rfl⟩

theorem init : Statement .init := ⟨rfl, rfl⟩

theorem update (b : Byte) : Statement (.update b) := by
  refine ⟨?_, by simp [Instr.wf, Instr.fields, CmdFields.wf, CmdFields.opOk, CmdFields.rsvOk, CmdFields.dataOk]⟩
  revert b
  decide

theorem finalize : Statement .finalize := ⟨rfl, rfl⟩

end Sys2Proof.Laws.LegalFields
end

