-- ==== Sys2Proof/Laws/Step.lean ====
section
/-! SUPPORT. What a step can do, said once, and how runs of steps unfold and compose. -/

namespace Sys2Proof.Machine

/-- Everything an edge can do: one of these cases holds (R73, R82, R230). -/
theorem step_cases {s t : State} (h : step s = .next t) :
    ((nextPins s).rst = true ∧ t = resetEdge (nextPins s) s) ∨
    ((nextPins s).rst = false ∧ (nextPins s).stable s.held = true ∧
      ((s.busy ≠ 0 ∧ t = busyEdge (nextPins s) s) ∨
        (s.busy = 0 ∧ (nextPins s).cmdValid = false ∧ t = takePins s) ∨
        (s.busy = 0 ∧ (nextPins s).cmdValid = true ∧
          ∃ u, execute (nextPins s).cmd (acceptState s) = .next u ∧ t = startBusy u))) := by
  unfold step clockEdge at h
  split at h
  · next hr => cases h; exact .inl ⟨hr, rfl⟩
  · next hr =>
    have hr := Bool.eq_false_iff.2 hr
    split at h
    · cases h
    · next hs =>
      have hs : (nextPins s).stable s.held = true := by simpa using hs
      refine .inr ⟨hr, hs, ?_⟩
      split at h
      · next hb =>
        cases h
        exact .inl ⟨by simpa using hb, rfl⟩
      · next hb =>
        have hb : s.busy = 0 := by simpa using hb
        split at h
        · next hv =>
          unfold acceptEdge at h
          split at h
          · next u hu => cases h; exact .inr (.inr ⟨hb, hv, u, hu, rfl⟩)
          · cases h
          · cases h
        · next hv => cases h; exact .inr (.inl ⟨hb, Bool.eq_false_iff.2 hv, rfl⟩)

/-- The edge that accepts a word (R73). -/
theorem step_accept {s : State} (hr : (nextPins s).rst = false)
    (hs : (nextPins s).stable s.held = true) (hb : s.busy = 0) (hv : (nextPins s).cmdValid = true) :
    step s = acceptEdge (nextPins s).cmd s := by
  have hready : cmdReady s = true := cmdReady_eq_true.2 hb
  simp [step, clockEdge, hr, hs, hready, hv]

theorem acceptEdge_of_next {w : CmdWord} {s u : State} (h : execute w (acceptState s) = .next u) :
    acceptEdge w s = .next (startBusy u) := by
  simp [acceptEdge, h]

/-- The edge with `cmd_ready = 0` (R73). -/
theorem step_busy {s : State} (hr : (nextPins s).rst = false)
    (hs : (nextPins s).stable s.held = true) (hb : s.busy ≠ 0) :
    step s = .next (busyEdge (nextPins s) s) := by
  have hready : cmdReady s = false := cmdReady_eq_false.2 hb
  simp [step, clockEdge, hr, hs, hready]

theorem core_run_zero (s : State) : core.run 0 s = .next s := rfl

/-- A run goes on after its first step. -/
theorem core_run_succ {s t : State} (k : Nat) (h : step s = .next t) :
    core.run (k + 1) s = core.run k t := by
  have hc : core.step s = .next t := h
  simp [Host.Core.run, hc]

/-- A run goes on from where another ends. -/
theorem core_run_add {j : Nat} {s t : State} (k : Nat) (h : core.run j s = .next t) :
    core.run (j + k) s = core.run k t := by
  induction j generalizing s with
  | zero => cases h; rw [Nat.zero_add]
  | succ j ih =>
    cases hs : step s with
    | next u =>
      rw [core_run_succ _ hs] at h
      rw [Nat.succ_add, core_run_succ _ hs]
      exact ih h
    | fault f =>
      have hc : core.step s = .fault f := hs
      simp [Host.Core.run, hc] at h
    | refused r =>
      have hc : core.step s = .refused r := hs
      simp [Host.Core.run, hc] at h

end Sys2Proof.Machine
end

