-- ==== Sys2Proof/Tests/Slice0.lean ====
section
/-! SUPPORT. The model's own tests. Expected values come from spec/95_test_vectors.md (V<n>) and the examples
of the rules. Then, for every statement with hypotheses, a witness that meets them. -/

namespace Sys2Proof.Tests

open Sys2Proof.Machine

set_option maxRecDepth 20000

/-! ## Well-formedness: each check refuses an ill-formed term -/

theorem test_wf_refuses_opcode : (CmdFields.mk 4 0 0).wf = false := by decide
theorem test_wf_refuses_reserved_bits : (CmdFields.mk 2 1 0x61).wf = false := by decide
theorem test_wf_refuses_data_on_init : (CmdFields.mk 1 0 1).wf = false := by decide
theorem test_wf_takes_update : (CmdFields.mk 2 0 0xff).wf = true := by decide
theorem test_wf_refuses_number_operand : (AsmLine.update (.number 256)).wf = false := by decide
theorem test_wf_refuses_char_operand : (AsmLine.update (.char 'é')).wf = false := by decide
theorem test_wf_refuses_wide_word : (AsmLine.word 0x10000).wf = false := by decide
theorem test_wf_refuses_hash_operand : (AsmLine.hash [.number 1, .number 300]).wf = false := by decide
theorem test_wf_refuses_bytes_operand : (AsmLine.updateBytes [.number 256]).wf = false := by decide
theorem test_wf_refuses_text : (AsmLine.updateStr ['a', 'é']).wf = false := by decide

/-! ## Decoding: words written out bit by bit from R72 and R77; V80 -/

theorem test_decode_nop : decode 0b0000_0000_00000000 = .ok .nop := by decide
theorem test_decode_init : decode 0b0001_0000_00000000 = .ok .init := by decide
theorem test_decode_update : decode 0b0010_0000_10000001 = .ok (.update 0b10000001) := by decide
theorem test_decode_finalize : decode 0b0011_0000_00000000 = .ok .finalize := by decide
theorem test_decode_nop_with_data : decode 0x0001 = .error .data := by decide
theorem test_decode_reserved_bits : decode 0x2f80 = .error .reserved := by decide
theorem test_decode_opcode_15 : decode 0xffff = .error .opcode := by decide
theorem test_decode_table_word : decodeTableWord 16 0x2061 = some (.update 0x61) := by decide
theorem test_decode_table_word_illegal : decodeTableWord 16 0x3001 = none := by decide

/-! ## The assembler (R80, R81) -/

theorem test_asm_update_char :
    assembleLine ['u', 'p', 'D', 'A', 'T', 'E', ' ', '\'', 'a', '\''] = some [0x2061] := by decide
theorem test_asm_update_hex :
    assembleLine [' ', 'U', 'P', 'D', 'A', 'T', 'E', ' ', '0', 'x', '8', 'F'] = some [0x208f] := by
  decide
theorem test_asm_update_too_big :
    assembleLine ['U', 'P', 'D', 'A', 'T', 'E', ' ', '2', '5', '6'] = none := by decide
theorem test_asm_word :
    assembleLine ['.', 'w', 'o', 'r', 'd', ' ', '0', 'x', '2', '1', '0', '0'] = some [0x2100] := by
  decide
theorem test_asm_nop_takes_no_operand : assembleLine ['N', 'O', 'P', ' ', '1'] = none := by decide
theorem test_asm_hash_bytes :
    assembleLine ['H', 'A', 'S', 'H', ' ', '1', ',', ' ', '\'', ',', '\''] =
      some [0x1000, 0x2001, 0x202c, 0x3000] := by decide
theorem test_asm_hash_of_nothing :
    assembleProgram [['h', 'a', 's', 'h'], ['N', 'o', 'p']] = some [0x1000, 0x3000, 0x0000] := by
  decide
theorem test_asm_update_str :
    assembleLine ("UPDATE_STR \"ab\"".toList) = some [0x2061, 0x2062] := by decide

/-! ## The compressor: V10, V11, V20, V21, V22, V23 -/

theorem test_rotr : rotr 0x6a09e667 7 = 0xced413cc := by decide
theorem test_bigSigma0 : bigSigma0 0x12345678 = 0x66146474 := by decide
theorem test_bigSigma1 : bigSigma1 0x12345678 = 0x3561abda := by decide
theorem test_smallSigma0 : smallSigma0 0x12345678 = 0xe7fce6ee := by decide
theorem test_smallSigma1 : smallSigma1 0x12345678 = 0xa1f78649 := by decide
theorem test_ch : ch 0xf0f0f0f0 0x12345678 0x9abcdef0 = 0x1a3c5e70 := by decide
theorem test_maj : maj 0xff00ff00 0x0ff00ff0 0x00ffff00 = 0x0ff0ff00 := by decide
theorem test_add32_carry_lost : add32 [0x80000000, 0x80000000, 5] = 5 := by decide

/-- The padded block of "abc" (V23). -/
def abcBlock : List Byte := [0x61, 0x62, 0x63, 0x80] ++ List.replicate 59 0 ++ [0x18]

theorem test_schedule_abc :
    ((schedule abcBlock).drop 16).take 4 = [0x61626380, 0x000f0000, 0x7da86405, 0x600003c6] := by
  decide
theorem test_schedule_abc_end :
    (schedule abcBlock).drop 61 = [0x668b2ff8, 0xeeaba2cc, 0x12b1edeb] := by decide
theorem test_round_0 :
    oneRound (loadVars h0Rom) 0x428a2f98 0x80000000 =
      ⟨0x7c08884d, 0x6a09e667, 0xbb67ae85, 0x3c6ef372, 0x18c7e2a2, 0x510e527f, 0x9b05688c,
        0x1f83d9ab⟩ := by decide
theorem test_compress_zero_state :
    (compress ⟨⟨List.replicate 8 0⟩, rfl⟩ (List.replicate 64 0)).toList =
      [0x7ca51614, 0x425c3ba8, 0xce54dd2f, 0xc2020ae7, 0xb6e574d1, 0x98136d0f, 0xae7e26cc,
        0xbf0be7a6] := by decide
theorem test_compress_ones :
    (compressWindow h0Rom (List.replicate 64 0xff)).toList =
      [0xef0c748d, 0xf4da50a8, 0xd6c43c01, 0x3edc3ce7, 0x6c9d9fa9, 0xa1458ade, 0x56eb86c0,
        0xa64492d2] := by decide

/-! ## The commands, one step each -/

/-- What a test looks at after a command. -/
def after (r : Host.Outcome State Fault Refusal) {α : Type} (f : State → α) : Option α :=
  match r with
  | .next t => some (f t)
  | .fault _ => none
  | .refused _ => none

/-- A context with the given bytes in `BUF` and bits in `TBL`. -/
def context (bytes : List Byte) (tbl : BitLength) : State :=
  { State.reset with
    buf := Memory.writeBytes [] 0 bytes, buflen := BitVec.ofNat 6 bytes.length, tbl := tbl }

/-- The message of V54. -/
def v54Bytes : List Byte := (List.range 14).flatMap fun i =>
  (List.range 4).map fun j => BitVec.ofNat 8 (0x61 + i + j)

theorem test_finalize_empty_message :
    after (step (State.reset.withFetchWord 16 0x3000)) (fun t => (t.h.toList, status t)) =
      some ([0xe3b0c442, 0x98fc1c14, 0x9afbf4c8, 0x996fb924, 0x27ae41e4, 0x649b934c, 0xa495991b,
        0x7852b855], 0x0040) := by decide
theorem test_finalize_abc :
    after (execute 0x3000 (context [0x61, 0x62, 0x63] 0))
      (fun t => (t.dg.toList.take 4, t.dg.toList.drop 28, t.tbl, status t)) =
      some ([0xba, 0x78, 0x16, 0xbf], [0xf2, 0x00, 0x15, 0xad], 24, 0x0040) := by decide
theorem test_finalize_two_blocks :
    after (execute 0x3000 (context v54Bytes 0)) (fun t => (digestValue t.dg, t.tbl)) =
      some (0x248d6a61d20638b8e5c026930c3e6039a33ce45964ff2167f6ecedd419db06c1, 448) := by decide
theorem test_update_first_byte :
    after (execute 0x2061 .reset) (fun t => (t.buf, t.buflen, t.tbl, status t)) =
      some ([(0, 0x61)], 1, 0, 0x0001) := by decide
theorem test_update_block_trigger :
    after (execute 0x2000 { State.reset with buflen := 63 }) (fun t => (t.h.toList, t.tbl, status t)) =
      some ([0xda5698be, 0x17b9b469, 0x62335799, 0x779fbeca, 0x8ce5d491, 0xc0d26243, 0xbafef9ea,
        0x1837a9d8], 512, 0x0000) := by decide
theorem test_update_at_the_limit :
    after (execute 0x20aa { State.reset with buflen := 62, tbl := 0xFFFFFFFFFFFFFE00 })
      (fun t => status t) = some 0x003f := by decide
theorem test_update_past_the_limit :
    after (execute 0x20bb { State.reset with buflen := 63, tbl := 0xFFFFFFFFFFFFFE00 })
      (fun t => (status t, t.tbl, t.buf)) = some (0x033f, 0xFFFFFFFFFFFFFE00, []) := by decide
theorem test_finalize_length_field :
    after (execute 0x3000 { State.reset with buflen := 63, tbl := 0xFFFFFFFFFFFFFE00 })
      (fun t => (t.tbl, t.buf.readBytes 55 9)) =
      some (0xFFFFFFFFFFFFFFF8, [0, 0xff, 0xff, 0xff, 0xff, 0xff, 0xff, 0xff, 0xf8]) := by decide
theorem test_init_clears_misuse :
    after (execute 0x1000 { State.reset with fin := true, errcode := .misuse, tbl := 8 })
      (fun t => (status t, t.tbl)) = some (0x0000, 0) := by decide
theorem test_nop_under_the_lock :
    after (execute 0x0000 { State.reset with errcode := .illegalCommand, buflen := 5 })
      (fun t => status t) = some 0x0105 := by decide
theorem test_illegal_word_absorbs_nothing :
    after (execute 0x2100 (context [0x61] 0)) (fun t => (status t, t.buf)) =
      some (0x0101, [(0, 0x61)]) := by decide
theorem test_first_error_is_kept :
    after (execute 0x4000 { State.reset with fin := true, errcode := .misuse })
      (fun t => status t) = some 0x0240 := by decide

/-! ## The port -/

theorem test_reset_mid_command :
    after (step { context [0x61] 512 with pins := [.reset], busy := 7, fin := true })
      (fun t => (status t, t.tbl, t.h, cmdReady t)) = some (0, 0, h0Rom, true) := by decide
theorem test_busy_engine_accepts_nothing :
    after (step { State.reset with pins := [.present 0x2061], busy := 1 })
      (fun t => (t.buflen, t.held, cmdReady t)) = some (0, some 0x2061, true) := by decide
theorem test_withdrawn_command_is_refused :
    step { State.reset with held := some 0x2061 } = .refused .unstableCommand := rfl
theorem test_out_of_range_access_faults : memRead [] 1 64 = .error (.bufIndex 1 64) := by decide
theorem test_port_value : digestValue (serialize h0Rom) =
    0x6a09e667bb67ae853c6ef372a54ff53a510e527f9b05688c1f83d9ab5be0cd19 := by decide

/-! ## Witnesses: for every statement with hypotheses, values that meet them, clause by clause -/

theorem witness_CommandWordFields :
    decode 0x20ff = .ok (.update 0xff) ∧ decode 0x3000 = .ok .finalize ∧
      ∀ b, Instr.finalize ≠ .update b := ⟨rfl, rfl, by simp⟩

theorem witness_LegalWordsMatchOneRow :
    (⟨.update, 0x2000, 0xFF00⟩ : OpcodeRow) ∈ opcodeMap ∧ (0x20ff : CmdWord) &&& 0xFF00 = 0x2000 := by
  decide

theorem witness_IllegalEncodings :
    decode 0x4000 = .error .opcode ∧ decode 0x2f00 = .error .reserved ∧
      decode 0x30ff = .error .data ∧ State.reset.errcode = .none ∧
      ({ State.reset with errcode := .misuse } : State).errcode ≠ .none := by decide

theorem witness_DecodeEncodeAgree :
    (Instr.update 0).wf = true ∧ (Instr.update 0xff).wf = true ∧ Instr.nop.wf = true := by decide

theorem witness_WrittenOutWordsDecode :
    decode 0x4000 = .error .opcode ∧ decode 0x3f00 = .error .reserved ∧ decode 0x0001 = .error .data := by
  decide

theorem witness_AssemblerOperands :
    assemble (.update (.number 255)) = some [0x20ff] ∧ assemble (.update (.number 256)) = none ∧
      assemble (.word 65535) = some [0xffff] ∧ assemble (.word 65536) = none := by decide

theorem witness_RotateIsCircular : (1 ≤ 1 ∧ 1 ≤ 31) ∧ (1 ≤ 31 ∧ 31 ≤ 31) ∧ 0 < 32 ∧ 31 < 32 := by decide

theorem witness_ShiftChooseMajority : 0 < 32 ∧ 31 < 32 := by decide

theorem witness_WordAdditionLaws : [(1 : Word), 2].Perm [2, 1] := .swap 2 1 []

theorem witness_InitialValueRom : 0 < 8 ∧ 7 < 8 := by decide

theorem witness_RoundConstantRom : 0 < 64 ∧ 63 < 64 := by decide

theorem witness_MessageSchedule :
    abcBlock.length = 64 ∧ 0 < 16 ∧ 15 < 16 ∧ (16 ≤ 16 ∧ 16 < 64) ∧ (16 ≤ 63 ∧ 63 < 64) := by decide

theorem witness_RoundAssignments :
    ∃ (v : WorkVars) (k w t1 t2 : Word),
      t1 = add32 [v.h, bigSigma1 v.e, ch v.e v.f v.g, k, w] ∧
        t2 = add32 [bigSigma0 v.a, maj v.a v.b v.c] :=
  ⟨loadVars h0Rom, 1, 2, _, _, rfl, rfl⟩

theorem witness_CompressRunsSixtyFourRounds : abcBlock.length = 64 ∧ 0 < 64 ∧ 63 < 64 := by decide

theorem witness_SlidingWindowCompressorAgrees : abcBlock.length = 64 := by decide

theorem witness_SerializerIsBigEndian : (0 < 8 ∧ 7 < 8) ∧ (0 < 4 ∧ 3 < 4) := by decide

theorem witness_DigestPortMapping : cmdReady .reset = true ∧ 0 < 32 ∧ 31 < 32 := by decide

theorem witness_NopChangesNothing :
    (1 ≤ 1 ∧ 1 ≤ 0xFF) ∧ (1 ≤ 0xFF ∧ 0xFF ≤ 0xFF) ∧
      status { State.reset with errcode := .illegalCommand, buflen := 5 } = 0x0105 := by decide

theorem witness_InitLoadsTheInitialContext :
    ∃ s t : State, execute 0x3000 s = .next t ∧ decode 0x3000 ≠ .ok .init ∧ s.errcode ≠ .none ∧ s.fin = true :=
  ⟨{ State.reset with errcode := .misuse, fin := true }, _, rfl, by decide⟩

/-- The error lock, MISUSE, INPUT_TOO_LARGE at its exact bound, and one byte below it at the fill counts 62
and 63. -/
theorem witness_UpdateCommand :
    ({ State.reset with errcode := .misuse } : State).errcode ≠ .none ∧
    (∃ s : State, s.errcode = .none ∧ s.fin = true) ∧
    (∃ s : State, s.errcode = .none ∧ s.fin = false ∧ 2 ^ 64 = s.tbl.toNat + 8 * (s.buflen.toNat + 1)) ∧
    (∃ s : State, s.errcode = .none ∧ s.fin = false ∧
      s.tbl.toNat + 8 * (s.buflen.toNat + 1) < 2 ^ 64 ∧ s.buflen.toNat = 62) ∧
    ∃ s : State, s.errcode = .none ∧ s.fin = false ∧
      s.tbl.toNat + 8 * (s.buflen.toNat + 1) < 2 ^ 64 ∧ s.buflen.toNat = 63 :=
  ⟨by decide, ⟨{ State.reset with fin := true }, by decide⟩,
    ⟨{ State.reset with buflen := 63, tbl := 0xFFFFFFFFFFFFFE00 }, by decide⟩,
    ⟨{ State.reset with buflen := 62, tbl := 0xFFFFFFFFFFFFFE00 }, by decide⟩,
    ⟨{ State.reset with buflen := 63, tbl := 0xFFFFFFFFFFFFFC00 }, by decide⟩⟩

/-- The error lock, MISUSE, fill counts 55 and 56, and a message that is accounted for. -/
theorem witness_FinalizeCommand :
    ({ State.reset with errcode := .misuse } : State).errcode ≠ .none ∧
    (∃ s : State, s.errcode = .none ∧ s.fin = true) ∧
    (∃ s : State, s.errcode = .none ∧ s.fin = false ∧ s.tbl.toNat + 8 * s.buflen.toNat < 2 ^ 64 ∧
      s.buflen.toNat = 55) ∧
    (∃ s : State, s.errcode = .none ∧ s.fin = false ∧ s.tbl.toNat + 8 * s.buflen.toNat < 2 ^ 64 ∧
      s.buflen.toNat = 56) ∧
    (Accounts [] .reset ∧ State.reset.errcode = .none ∧ State.reset.fin = false) ∧
    (0 < 8 ∧ 7 < 8) ∧ (0 < 4 ∧ 3 < 4) :=
  ⟨by decide, ⟨{ State.reset with fin := true }, by decide⟩,
    ⟨{ State.reset with buflen := 55 }, by decide⟩, ⟨{ State.reset with buflen := 56 }, by decide⟩,
    ⟨⟨rfl, rfl, rfl, rfl⟩, rfl, rfl⟩, by decide, by decide⟩

theorem witness_RaiseKeepsTheFirstError :
    State.reset.errcode = .none ∧
      ({ State.reset with errcode := .inputTooLarge } : State).errcode ≠ .none := by decide

theorem witness_ExecuteIsTotal :
    decode 0x3000 = .ok .finalize ∧ decode 0x4000 = .error .opcode := by decide

theorem witness_ErrorLock :
    ∃ s t : State, s.errcode ≠ .none ∧ decode 0x4000 = .error .opcode ∧ execute 0x2061 s = .next t ∧
      decode 0x2061 ≠ .ok .init :=
  ⟨{ State.reset with errcode := .misuse }, _, by decide, rfl, rfl, by decide⟩

theorem witness_ErrorsArePrecise :
    (∃ t, execute 0x4000 .reset = .next t ∧ State.reset.errcode = .none ∧ t.errcode ≠ .none) ∧
    ∃ s t : State, execute 0x4000 s = .next t ∧ s.errcode ≠ .none ∧ s.erred = false ∧ t.erred = true :=
  ⟨⟨_, rfl, by decide⟩, ⟨{ State.reset with errcode := .misuse }, _, rfl, by decide⟩⟩

theorem witness_OutcomePriority :
    decode 0x2100 = .error .reserved ∧ decode 0x3000 = .ok .finalize ∧
    decode 0x2000 = .ok (.update 0) ∧
    ({ State.reset with errcode := .misuse, fin := true } : State).errcode ≠ .none ∧
    (∃ s : State, s.errcode = .none ∧ s.fin = true) ∧
    (∃ s : State, s.errcode = .none ∧ s.fin = false ∧
      2 ^ 64 ≤ s.tbl.toNat + 8 * (s.buflen.toNat + 1)) ∧
    ∃ s : State, s.errcode = .none ∧ s.fin = false ∧
      s.tbl.toNat + 8 * (s.buflen.toNat + 1) < 2 ^ 64 :=
  ⟨rfl, rfl, rfl, by decide, ⟨{ State.reset with fin := true }, by decide⟩,
    ⟨{ State.reset with buflen := 63, tbl := 0xFFFFFFFFFFFFFE00 }, by decide⟩,
    ⟨{ State.reset with buflen := 62, tbl := 0xFFFFFFFFFFFFFE00 }, by decide⟩⟩

/-- The step that accepts `w` in `s`. -/
def stepOn (w : Nat) (s : State) : Host.Outcome State Fault Refusal := step (s.withFetchWord 16 w)

/-- Every writer of `H` does write: reset, INIT, the block trigger, FINALIZE with one block and with two. -/
theorem witness_HashStateWriters :
    (∃ s t : State, step s = .next t ∧ t.h ≠ s.h ∧ (nextPins s).rst = true) ∧
    (∃ s t : State, stepOn 0x1000 s = .next t ∧ t.h ≠ s.h) ∧
    (∃ s t : State, stepOn 0x2000 s = .next t ∧ t.h ≠ s.h) ∧
    (∃ s t : State, stepOn 0x3000 s = .next t ∧ t.h ≠ s.h ∧ s.buflen.toNat = 55) ∧
    ∃ s t : State, stepOn 0x3000 s = .next t ∧ t.h ≠ s.h ∧ s.buflen.toNat = 56 :=
  ⟨⟨{ State.reset with h := ⟨⟨List.replicate 8 0⟩, rfl⟩, pins := [.reset] }, _, rfl, by decide⟩,
    ⟨{ State.reset with h := ⟨⟨List.replicate 8 0⟩, rfl⟩ }, _, rfl, by decide⟩,
    ⟨{ State.reset with buflen := 63 }, _, rfl, by decide⟩,
    ⟨{ State.reset with buflen := 55 }, _, rfl, by decide⟩,
    ⟨{ State.reset with buflen := 56 }, _, rfl, by decide⟩⟩

theorem witness_LengthCounterWriters :
    (∃ s t : State, step s = .next t ∧ t.tbl ≠ s.tbl ∧ (nextPins s).rst = true) ∧
    (∃ s t : State, stepOn 0x1000 s = .next t ∧ t.tbl ≠ s.tbl) ∧
    (∃ s t : State, stepOn 0x2000 s = .next t ∧ t.tbl ≠ s.tbl) ∧
    ∃ s t : State, stepOn 0x3000 s = .next t ∧ t.tbl ≠ s.tbl ∧
      s.tbl.toNat + 8 * s.buflen.toNat < 2 ^ 64 :=
  ⟨⟨{ State.reset with tbl := 512, pins := [.reset] }, _, rfl, by decide⟩,
    ⟨{ State.reset with tbl := 512 }, _, rfl, by decide⟩,
    ⟨{ State.reset with buflen := 63 }, _, rfl, by decide⟩,
    ⟨{ State.reset with buflen := 1 }, _, rfl, by decide⟩⟩

theorem witness_FinWriters :
    (∃ s t : State, stepOn 0x3000 s = .next t ∧ s.fin = false ∧ t.fin = true) ∧
    (∃ s t : State, stepOn 0x1000 s = .next t ∧ s.fin = true ∧ t.fin = false) ∧
    ∃ s t : State, step s = .next t ∧ s.fin = true ∧ t.fin = false ∧ (nextPins s).rst = true :=
  ⟨⟨.reset, _, rfl, by decide⟩, ⟨{ State.reset with fin := true }, _, rfl, by decide⟩,
    ⟨{ State.reset with fin := true, pins := [.reset] }, _, rfl, by decide⟩⟩

theorem witness_ErrcodeWriters :
    (∃ s t : State, stepOn 0xffff s = .next t ∧ t.errcode ≠ s.errcode) ∧
    (∃ s t : State, stepOn 0x3000 s = .next t ∧ t.errcode ≠ s.errcode) ∧
    (∃ s t : State, stepOn 0x2000 s = .next t ∧ t.errcode ≠ s.errcode ∧ s.fin = false) ∧
    (∃ s t : State, stepOn 0x1000 s = .next t ∧ t.errcode ≠ s.errcode) ∧
    ∃ s t : State, step s = .next t ∧ t.errcode ≠ s.errcode ∧ (nextPins s).rst = true :=
  ⟨⟨.reset, _, rfl, by decide⟩, ⟨{ State.reset with fin := true }, _, rfl, by decide⟩,
    ⟨{ State.reset with buflen := 63, tbl := 0xFFFFFFFFFFFFFE00 }, _, rfl, by decide⟩,
    ⟨{ State.reset with errcode := .misuse }, _, rfl, by decide⟩,
    ⟨{ State.reset with errcode := .misuse, pins := [.reset] }, _, rfl, by decide⟩⟩

theorem witness_GhostFlagRecordsEveryError :
    ∃ s t : State, execute 0x3000 s = .next t ∧ s.erred = false ∧ t.erred = true :=
  ⟨{ State.reset with fin := true }, _, rfl, by decide⟩

theorem witness_DigestWriters :
    (∃ s t : State, stepOn 0x3000 s = .next t ∧ t.dg ≠ s.dg) ∧
    (∃ s t : State, stepOn 0x1000 s = .next t ∧ t.dg ≠ s.dg) ∧
    ∃ s t : State, step s = .next t ∧ t.dg ≠ s.dg ∧ (nextPins s).rst = true :=
  ⟨⟨.reset, _, rfl, by decide⟩,
    ⟨{ State.reset with dg := ⟨⟨List.replicate 32 1⟩, rfl⟩ }, _, rfl, by decide⟩,
    ⟨{ State.reset with dg := ⟨⟨List.replicate 32 1⟩, rfl⟩, pins := [.reset] }, _, rfl, by decide⟩⟩

theorem witness_PendingBufferWriters :
    (∃ s t : State, stepOn 0x2061 s = .next t ∧ t.buf.read 63 ≠ s.buf.read 63) ∧
    ∃ s t : State, stepOn 0x3000 s = .next t ∧ t.buf.read 0 ≠ s.buf.read 0 :=
  ⟨⟨{ State.reset with buflen := 63 }, _, rfl, by decide⟩, ⟨.reset, _, rfl, by decide⟩⟩

/-- A state that meets the invariant: the one right after reset. -/
theorem witness_reset_inv : Inv .reset :=
  ⟨rfl, by decide, by decide, fun _ => rfl, by decide, by decide, by decide⟩

theorem witness_EveryStepKeepsTheInvariant :
    ∃ s t : State, Inv s ∧ step s = .next t ∧ t.buflen = 1 :=
  ⟨State.reset.withFetchWord 16 0x2061, _,
    ⟨rfl, by decide, by decide, fun _ => rfl, by decide, by decide, by decide⟩, rfl, by decide⟩

theorem witness_DigestMatchesLifecycle :
    ∃ s t : State, (s.fin = true → s.dg = serialize s.h) ∧
      (s.fin = false → s.dg.toList = List.replicate 32 0) ∧ execute 0x3000 s = .next t ∧ t.fin = true :=
  ⟨.reset, _, by decide, by decide, rfl, by decide⟩

/-- FINALIZE's sum is met at its last exact value and past it. -/
theorem witness_LengthNeverWraps :
    (∃ s t : State, Inv s ∧ execute 0x2061 s = .next t) ∧
    (∃ s : State, s.errcode = .none ∧ s.fin = false ∧ s.tbl.toNat + 8 * s.buflen.toNat = 2 ^ 64 - 8) ∧
    ∃ s : State, s.errcode = .none ∧ s.fin = false ∧ 2 ^ 64 ≤ s.tbl.toNat + 8 * s.buflen.toNat :=
  ⟨⟨.reset, _, witness_reset_inv, rfl⟩,
    ⟨{ State.reset with buflen := 63, tbl := 0xFFFFFFFFFFFFFE00 }, by decide⟩,
    ⟨{ State.reset with buflen := 63, tbl := 0xFFFFFFFFFFFFFFFF }, by decide⟩⟩

theorem accounts_empty : Accounts [] .reset := ⟨rfl, rfl, rfl, rfl⟩

theorem witness_MessageAccounting :
    ∃ s t : State, (s.fin = false → Accounts [] s) ∧ execute 0x2061 s = .next t ∧ t.fin = false :=
  ⟨.reset, _, fun _ => accounts_empty, rfl, by decide⟩

/-- A step from an active state that accepts a word, and one from a finalized state that resets. -/
theorem witness_EveryStepTracksTheMessage :
    (∃ s t : State, TracksMessage [] s ∧ step s = .next t ∧ messageAfterStep s [] = [0x61]) ∧
    ∃ s t : State, TracksMessage [1] s ∧ s.fin = true ∧ step s = .next t ∧ messageAfterStep s [1] = [] :=
  ⟨⟨State.reset.withFetchWord 16 0x2061, _, ⟨fun _ => ⟨rfl, rfl, rfl, rfl⟩, by decide⟩, rfl, by decide⟩,
    ⟨{ State.reset with fin := true, dg := sha256 [1], pins := [.reset] }, _,
      ⟨fun h => Bool.noConfusion h, fun _ => rfl⟩, rfl, rfl, rfl⟩⟩

theorem witness_FinalizeHashesTheMessage :
    State.reset.errcode = .none ∧ State.reset.fin = false ∧ Accounts [] .reset ∧
      ([] : List Byte).length ≤ Config.maxMessageBytes :=
  ⟨rfl, rfl, accounts_empty, by decide⟩

theorem witness_HashSequenceComputesSha256 :
    [AsmByte.char 'a', .number 98].length ≤ Config.maxMessageBytes := by decide

theorem witness_RunDigestIsSha256 : ∃ t : State, RunHashed [0x1000, 0x3000] [] t :=
  ⟨_, rfl, by decide, by decide, rfl⟩

theorem witness_StreamingEquivalence : ∃ t : State, executeAll [0x2061, 0x0000] .reset = .next t :=
  ⟨_, rfl⟩

/-- Two states that differ in the stale bytes 1 and 63 only, one byte being filled. -/
theorem witness_StaleBytesAreNeverRead :
    ∃ s s' t : State, s ≠ s' ∧ AgreeUpToStale s s' ∧ execute 0x2062 s = .next t := by
  refine ⟨{ State.reset with buf := [(0, 0x61)], buflen := 1 },
    { State.reset with buf := [(0, 0x61), (1, 7), (63, 9)], buflen := 1 }, _, by decide, ⟨rfl, ?_⟩, rfl⟩
  intro a ha
  have ha : a < 1 := ha
  rw [Nat.lt_one_iff.1 ha]
  rfl

theorem witness_StepRunsTheDecodedCommand :
    (∃ s : State, (nextPins s).rst = false ∧ (nextPins s).cmdValid = true ∧
      (nextPins s).stable s.held = true ∧ s.busy = 0 ∧ decode (nextPins s).cmd = .ok (.update 0x61)) ∧
    0x3000 < 65536 ∧ decodeTableWord 16 0x3000 = some .finalize :=
  ⟨⟨{ State.reset with pins := [.present 0x2061], held := some 0x2061 }, by decide⟩, by decide⟩

theorem witness_StepRaisesOnAnIllegalWord :
    ∃ s : State, (nextPins s).rst = false ∧ (nextPins s).cmdValid = true ∧
      (nextPins s).stable s.held = true ∧ s.busy = 0 ∧ decode (nextPins s).cmd = .error .reserved :=
  ⟨{ State.reset with pins := [.present 0x2100] }, by decide⟩

theorem witness_NoCommandNoEffect :
    (∃ s : State, (nextPins s).rst = false ∧ (nextPins s).stable s.held = true ∧ s.busy ≠ 0) ∧
    ∃ s : State, (nextPins s).rst = false ∧ (nextPins s).stable s.held = true ∧
      (nextPins s).cmdValid = false :=
  ⟨⟨{ State.reset with pins := [.present 0x2061], busy := 1 }, by decide⟩, ⟨.reset, by decide⟩⟩

theorem witness_UnstableCommandRefused :
    (∃ s : State, s.held = some 0x2061 ∧ (nextPins s).rst = false ∧ (nextPins s).cmdValid = false) ∧
    ∃ s : State, s.held = some 0x2061 ∧ (nextPins s).rst = false ∧ (nextPins s).cmd ≠ 0x2061 :=
  ⟨⟨{ State.reset with held := some 0x2061 }, by decide⟩,
    ⟨{ State.reset with held := some 0x2061, pins := [.present 0x2062] }, by decide⟩⟩

theorem witness_ResetEdgeGivesTheResetState : ∃ s : State, (nextPins s).rst = true ∧ s.busy = 3 :=
  ⟨{ State.reset with pins := [.reset], busy := 3 }, by decide⟩

theorem witness_ResetEdgeOnThePort :
    (∃ s : State, (nextPins s).rst = true ∧ (nextPins s).word = some 0x2061) ∧
    ∃ s t : State, (nextPins s).rst = true ∧ step s = .next t ∧ t.held = none ∧ t.pins = [] ∧ t.busy = 2 :=
  ⟨⟨{ State.reset with pins := [⟨true, true, 0x2061⟩] }, by decide⟩,
    ⟨{ State.reset with pins := [.reset], latency := [2] }, _, rfl, rfl, rfl, rfl, rfl⟩⟩

theorem witness_ReadyReturns :
    ∃ (s : State) (front rest : List Pins), s.pins = front ++ rest ∧ front.length = s.busy ∧
      HostKeeps s.held front ∧ s.busy = 2 :=
  ⟨{ State.reset with pins := [.idle, .present 0x2061, .present 0x2061], busy := 2 },
    [.idle, .present 0x2061], [.present 0x2061], rfl, rfl, ⟨rfl, rfl, rfl, rfl, trivial⟩, rfl⟩

theorem witness_PresentedCommandIsAccepted :
    ∃ s : State, s.pins = List.replicate (s.busy + 1) (.present 0x2061) ++ [] ∧ s.held = none ∧
      s.busy = 2 :=
  ⟨{ State.reset with pins := List.replicate 3 (.present 0x2061), busy := 2 }, by decide⟩

theorem witness_PortsShowTheStateWhenReady : cmdReady .reset = true := by decide

theorem witness_TimingDoesNotChangeResults :
    ∃ (cs : List (CmdWord × Nat)) (s : State), s.busy = 0 ∧ s.held = none ∧
      s.pins = cs.flatMap (fun c => Pins.present c.1 :: List.replicate c.2 Pins.idle) ∧
      s.latency = cs.map Prod.snd ∧ cs.length = 2 :=
  ⟨[(0x2061, 3), (0x3000, 0)], { State.reset with
    pins := [.present 0x2061, .idle, .idle, .idle, .present 0x3000], latency := [3, 0] }, by decide⟩

end Sys2Proof.Tests
end

/-! What an edge and a word can do to the engine, in the form the proofs about its state use, and the
invariant (spec/10_state.md, spec/70_reset_and_hazards.md R230). -/

namespace Sys2Proof.Machine

variable {s t : State} {w : CmdWord}

/-- What an edge does to the engine: reset it, leave it alone, or execute the one word it accepts. -/
theorem step_engine_cases (h : step s = .next t) :
    ((nextPins s).rst = true ∧ t = resetEdge (nextPins s) s) ∨
    ((nextPins s).rst = false ∧ (∀ w, ¬Accepts s w) ∧ SameEngine s t) ∨
    ∃ w u, Accepts s w ∧ execute w (acceptState s) = .next u ∧ t = startBusy u := by
  rcases step_cases h with hr | ⟨hr, -, ⟨hb, rfl⟩ | ⟨-, hv, rfl⟩ | ⟨hb, hv, u, hu, rfl⟩⟩
  · exact .inl hr
  · exact .inr (.inl ⟨hr, fun _ ⟨_, hready, _⟩ => hb hready, rfl⟩)
  · exact .inr (.inl ⟨hr, fun _ ⟨_, _, hw⟩ => by simp [Pins.word, hv] at hw, rfl⟩)
  · exact .inr (.inr ⟨_, u, ⟨hr, hb, by simp [Pins.word, hv]⟩, hu, rfl⟩)

section sameEngineFields
variable (h : SameEngine s t)
include h
theorem SameEngine.h_eq : t.h = s.h := (congrArg State.h h).symm
theorem SameEngine.buf_eq : t.buf = s.buf := (congrArg State.buf h).symm
theorem SameEngine.fin_eq : t.fin = s.fin := (congrArg State.fin h).symm
theorem SameEngine.errcode_eq : t.errcode = s.errcode := (congrArg State.errcode h).symm
theorem SameEngine.dg_eq : t.dg = s.dg := (congrArg State.dg h).symm
end sameEngineFields

theorem sameEngine_acceptState (s : State) : SameEngine s (acceptState s) := rfl

theorem sameEngine_startBusy (s : State) : SameEngine s (startBusy s) := rfl

theorem messageAfter_init (hd : decode w = .ok .init) (s : State) (m : List Byte) :
    messageAfter w s m = [] := by
  simp [messageAfter, hd]

theorem messageAfter_finalize (hd : decode w = .ok .finalize) (s : State) (m : List Byte) :
    messageAfter w s m = m := by
  simp [messageAfter, hd]

theorem updateAccepted_iff :
    updateAccepted s = true ↔ s.errcode = .none ∧ s.fin = false ∧
      s.tbl.toNat + 8 * (s.buflen.toNat + 1) < 2 ^ 64 := by
  simp [updateAccepted, tooLarge, and_assoc]

theorem messageAfter_update {b : Byte} (hd : decode w = .ok (.update b)) (s : State) (m : List Byte) :
    messageAfter w s m = if updateAccepted s then m ++ [b] else m := by
  simp [messageAfter, hd]

/-- What an accepted word does to the engine and to the message absorbed so far. `execute_cases` says
which check or which word leads where; this form keeps the effects apart. -/
theorem execute_effect (h : execute w s = .next t) :
    ((t = s ∨ ∃ e, t = raise e s) ∧ ∀ m, messageAfter w s m = m) ∨
    (decode w = .ok .init ∧ t = loadInitial s) ∨
    (∃ b, decode w = .ok (.update b) ∧ updateAccepted s = true ∧ t = absorbed b s) ∨
    (decode w = .ok .finalize ∧ s.errcode = .none ∧ s.fin = false ∧ t = finalized s) := by
  have rejected (hw : decode w = .ok .finalize ∨ ∃ b, decode w = .ok (.update b))
      (hs : updateAccepted s ≠ true) (m : List Byte) : messageAfter w s m = m := by
    rcases hw with hd | ⟨b, hd⟩
    · exact messageAfter_finalize hd s m
    · rw [messageAfter_update hd, if_neg hs]
  rcases execute_cases h with ⟨e, hd, ht⟩ | ⟨hd, ht⟩ | hinit | ⟨hw, he, ht⟩ | ⟨hw, -, hf, ht⟩ |
    ⟨b, hd, -, -, hl, ht⟩ | ⟨b, hd, he, hf, hl, ht⟩ | hfin
  · exact .inl ⟨.inr ⟨_, ht⟩, fun m => by simp [messageAfter, hd]⟩
  · exact .inl ⟨.inl ht, fun m => by simp [messageAfter, hd]⟩
  · exact .inr (.inl hinit)
  · exact .inl ⟨.inl ht, rejected hw fun ha => he (updateAccepted_iff.1 ha).1⟩
  · exact .inl ⟨.inr ⟨_, ht⟩, rejected hw fun ha => by simp [updateAccepted_iff, hf] at ha⟩
  · refine .inl ⟨.inr ⟨_, ht⟩, rejected (.inr ⟨b, hd⟩) fun ha => ?_⟩
    obtain ⟨-, -, hlt⟩ := updateAccepted_iff.1 ha
    omega
  · exact .inr (.inr (.inl ⟨b, hd, updateAccepted_iff.2 ⟨he, hf, hl⟩, ht⟩))
  · exact .inr (.inr (.inr hfin))

/-! ### The invariant -/

theorem Inv.of_sameEngine (h : SameEngine s t) (hi : Inv s) : Inv t := by
  unfold SameEngine at h
  rw [← h]
  exact ⟨hi.bufWf, hi.digestFinal, hi.countFinal, hi.digestActive, hi.tblActive, hi.lengthFits,
    hi.errorSeen⟩

theorem Inv.raise (e : EngineError) (hi : Inv s) : Inv (raise e s) :=
  ⟨hi.bufWf, hi.digestFinal, hi.countFinal, hi.digestActive, hi.tblActive, hi.lengthFits,
    fun _ => rfl⟩

/-- The initial context meets the invariant on any canonical buffer. -/
theorem inv_loadInitial (h : s.buf.wf = true) : Inv (loadInitial s) where
  bufWf := h
  digestFinal := nofun
  countFinal := nofun
  digestActive _ := rfl
  tblActive _ := rfl
  lengthFits := by simp
  errorSeen := by simp

/-- UPDATE's length check is what keeps the length sum in 64 bits (R205, R206). -/
theorem Inv.absorbed (b : Byte) (hi : Inv s) (hs : updateAccepted s = true) : Inv (absorbed b s) := by
  obtain ⟨he, hf, hl⟩ := updateAccepted_iff.1 hs
  have hn := s.buflen.isLt
  have hwf : (Machine.absorbed b s).buf.wf = true := by
    simpa using Memory.wf_write b hi.bufWf (by omega)
  have hlen : (Machine.absorbed b s).tbl.toNat % 512 = 0 ∧
      (Machine.absorbed b s).tbl.toNat + 8 * (Machine.absorbed b s).buflen.toNat < 2 ^ 64 := by
    have htbl := hi.tblActive hf
    by_cases h63 : s.buflen.toNat = 63
    · have hadd := tbl_add_512 (s := s) (by omega)
      rw [absorbed_of_eq b h63]
      simp only [hadd]
      omega
    · have hsucc := buflen_succ (s := s) (by omega)
      rw [absorbed_of_lt b (by omega)]
      simp only [hsucc]
      omega
  exact
    { bufWf := hwf
      digestFinal := by simp [hf]
      countFinal := by simp [hf]
      digestActive := by simpa using hi.digestActive
      tblActive := fun _ => hlen.1
      lengthFits := hlen.2
      errorSeen := by simp [he] }

theorem Inv.finalized (hi : Inv s) : Inv (finalized s) where
  bufWf := wf_lastBuf hi.bufWf
  digestFinal _ := rfl
  countFinal _ := rfl
  digestActive := nofun
  tblActive := nofun
  lengthFits := by simpa [messageBits_toNat hi.lengthFits] using hi.lengthFits
  errorSeen := by simpa using hi.errorSeen

theorem execute_inv (hi : Inv s) (h : execute w s = .next t) : Inv t := by
  rcases execute_effect h with
    ⟨rfl | ⟨e, rfl⟩, -⟩ | ⟨-, rfl⟩ | ⟨b, -, hs, rfl⟩ | ⟨-, -, -, rfl⟩
  · exact hi
  · exact hi.raise e
  · exact inv_loadInitial hi.bufWf
  · exact hi.absorbed b hs
  · exact hi.finalized

/-- Settles O38: reset loads the initial context, with an empty buffer. -/
theorem invariantHoldsAtReset : Obligations.InvariantHoldsAtReset :=
  inv_loadInitial (s := .reset) rfl

/-- Settles O39: a reset edge loads the initial context, an idle or busy edge leaves the engine alone,
and every word keeps the invariant. -/
theorem everyStepKeepsTheInvariant : Obligations.EveryStepKeepsTheInvariant := by
  intro s t hi h
  rcases step_engine_cases h with ⟨-, rfl⟩ | ⟨-, -, hsame⟩ | ⟨w, u, -, hex, rfl⟩
  · have := inv_loadInitial (s := { s with buf := [] }) rfl
    exact { this with errorSeen := by simp }
  · exact hi.of_sameEngine hsame
  · exact (execute_inv (hi.of_sameEngine (sameEngine_acceptState s)) hex).of_sameEngine
      (sameEngine_startBusy u)

end Sys2Proof.Machine

/-! What writes `FIN`, `ERRCODE` and `DG`, the `STATUS` view, and the reset values (spec/10_state.md R24
to R32). -/

namespace Sys2Proof.Machine

variable {s t : State} {w : CmdWord}

theorem execute_fin_set (h : execute w s = .next t) (hs : s.fin = false) (ht : t.fin = true) :
    s.errcode = .none ∧ decode w = .ok .finalize := by
  rcases execute_effect h with
    ⟨rfl | ⟨e, rfl⟩, -⟩ | ⟨-, rfl⟩ | ⟨b, -, -, rfl⟩ | ⟨hd, he, -, rfl⟩
  · simp [hs] at ht
  · simp [hs] at ht
  · simp at ht
  · simp [hs] at ht
  · exact ⟨he, hd⟩

theorem execute_fin_clear (h : execute w s = .next t) (hs : s.fin = true) (ht : t.fin = false) :
    decode w = .ok .init := by
  rcases execute_effect h with
    ⟨rfl | ⟨e, rfl⟩, -⟩ | ⟨hd, rfl⟩ | ⟨b, -, -, rfl⟩ | ⟨-, -, -, rfl⟩
  · simp [hs] at ht
  · simp [hs] at ht
  · exact hd
  · simp [hs] at ht
  · simp at ht

/-- Settles O32: reset and INIT are all that clears `FIN`, a FINALIZE past its checks all that sets it. -/
theorem finWriters : Obligations.FinWriters := by
  intro s t h
  rcases step_engine_cases h with ⟨hr, rfl⟩ | ⟨-, -, hsame⟩ | ⟨w, u, hacc, hex, rfl⟩
  · exact ⟨nofun, fun _ _ => .inl hr⟩
  · have hfin := hsame.fin_eq
    exact ⟨fun hs ht => by simp [hfin, hs] at ht, fun hs ht => by simp [hfin, hs] at ht⟩
  · refine ⟨fun hs ht => ?_, fun hs ht => .inr ⟨w, hacc, execute_fin_clear hex hs ht⟩⟩
    obtain ⟨he, hd⟩ := execute_fin_set hex hs ht
    exact ⟨he, w, hacc, hd⟩

theorem execute_errcode_writers (h : execute w s = .next t) (hne : t.errcode ≠ s.errcode) :
    (decode w = .ok .init ∧ t.errcode = .none) ∨
    (s.errcode = .none ∧
      ((t.errcode = .illegalCommand ∧ ∃ e, decode w = .error e) ∨
        (t.errcode = .misuse ∧ s.fin = true ∧
          (decode w = .ok .finalize ∨ ∃ b, decode w = .ok (.update b))) ∨
        (t.errcode = .inputTooLarge ∧ 2 ^ 64 ≤ s.tbl.toNat + 8 * (s.buflen.toNat + 1) ∧
          ∃ b, decode w = .ok (.update b)))) := by
  have raised {e : EngineError} (hne : (raise e s).errcode ≠ s.errcode) :
      s.errcode = .none ∧ (raise e s).errcode = e.code := by
    by_cases he : s.errcode = .none
    · exact ⟨he, by simp [he]⟩
    · exact absurd (if_neg he) hne
  rcases execute_cases h with ⟨e, hd, rfl⟩ | ⟨-, rfl⟩ | ⟨hd, rfl⟩ | ⟨-, -, rfl⟩ | ⟨hd, -, hf, rfl⟩ |
    ⟨b, hd, -, -, hl, rfl⟩ | ⟨b, -, -, -, -, rfl⟩ | ⟨-, -, -, rfl⟩
  · obtain ⟨he, hcode⟩ := raised hne
    exact .inr ⟨he, .inl ⟨hcode, e, hd⟩⟩
  · exact absurd rfl hne
  · exact .inl ⟨hd, rfl⟩
  · exact absurd rfl hne
  · obtain ⟨he, hcode⟩ := raised hne
    exact .inr ⟨he, .inr (.inl ⟨hcode, hf, hd⟩)⟩
  · obtain ⟨he, hcode⟩ := raised hne
    exact .inr ⟨he, .inr (.inr ⟨hcode, hl, b, hd⟩)⟩
  · exact absurd (absorbed_errcode b s) hne
  · exact absurd (finalized_errcode s) hne

/-- Settles O33: a reset edge writes NONE, and the word an edge accepts writes `ERRCODE` as
`execute_errcode_writers` says. -/
theorem errcodeWriters : Obligations.ErrcodeWriters := by
  refine ⟨rfl, rfl, rfl, rfl, rfl, fun s t h hne => ?_⟩
  rcases step_engine_cases h with ⟨hr, rfl⟩ | ⟨-, -, hsame⟩ | ⟨w, u, hacc, hex, rfl⟩
  · exact .inl ⟨hr, rfl⟩
  · exact absurd hsame.errcode_eq hne
  · exact .inr ⟨w, hacc, execute_errcode_writers (s := acceptState s) (t := u) hex hne⟩

theorem execute_dg_writers (h : execute w s = .next t) (hne : t.dg ≠ s.dg) :
    (decode w = .ok .init ∧ t.dg = zeroDigest) ∨
    (decode w = .ok .finalize ∧ s.fin = false ∧ s.errcode = .none ∧ t.fin = true ∧
      t.dg = serialize t.h) := by
  rcases execute_effect h with
    ⟨rfl | ⟨e, rfl⟩, -⟩ | ⟨hd, rfl⟩ | ⟨b, -, -, rfl⟩ | ⟨hd, he, hf, rfl⟩
  · exact absurd rfl hne
  · exact absurd rfl hne
  · exact .inl ⟨hd, rfl⟩
  · exact absurd (absorbed_dg b s) hne
  · exact .inr ⟨hd, hf, he, rfl, rfl⟩

/-- Settles O35: a reset edge zeroes `DG`, and the word an edge accepts writes it as
`execute_dg_writers` says. -/
theorem digestWriters : Obligations.DigestWriters := by
  intro s t h hne
  rcases step_engine_cases h with ⟨hr, rfl⟩ | ⟨-, -, hsame⟩ | ⟨w, u, hacc, hex, rfl⟩
  · exact .inl ⟨hr, rfl⟩
  · exact absurd hsame.dg_eq hne
  · exact .inr ⟨w, hacc, execute_dg_writers (s := acceptState s) (t := u) hex hne⟩

/-- Settles O40: UPDATE runs only while `FIN = 0` and keeps `DG`; FINALIZE and INIT write `DG` with the
new `FIN`. -/
theorem digestMatchesLifecycle : Obligations.DigestMatchesLifecycle := by
  intro w s t hfinal hactive h
  rcases execute_effect h with
    ⟨rfl | ⟨e, rfl⟩, -⟩ | ⟨-, rfl⟩ | ⟨b, -, hs, rfl⟩ | ⟨-, -, -, rfl⟩
  · exact ⟨hfinal, hactive⟩
  · exact ⟨hfinal, hactive⟩
  · exact ⟨nofun, fun _ => rfl⟩
  · obtain ⟨-, hf, -⟩ := updateAccepted_iff.1 hs
    exact ⟨by simp [hf], by simpa using hactive⟩
  · exact ⟨fun _ => rfl, nofun⟩

/-- Each bit of `STATUS` (R32). -/
theorem getLsbD_status (s : State) (i : Nat) :
    (status s).getLsbD i =
      if i < 6 then s.buflen.getLsbD i else if i = 6 then s.fin else if i < 8 then false
      else s.errcode.bits.getLsbD (i - 8) := by
  simp only [status, finBit, BitVec.getLsbD_or, BitVec.getLsbD_shiftLeft, BitVec.getLsbD_setWidth,
    BitVec.getLsbD_ofBool]
  have hbuflen (h : ¬i < 6) : s.buflen.getLsbD i = false := BitVec.getLsbD_of_ge _ _ (by omega)
  split_ifs with h6 hfin h8
  · simp [h6, show i < 8 by omega, show i < 16 by omega]
  · simp [hfin]
  · simp [hbuflen h6, h8, show i - 6 ≠ 0 by omega]
  · by_cases h10 : i < 10
    · simp [hbuflen h6, h8, show i - 6 ≠ 0 by omega, show i < 16 by omega, show i - 8 < 16 by omega]
    · simp [hbuflen h6, show i - 6 ≠ 0 by omega, BitVec.getLsbD_of_ge _ _ (show 2 ≤ i - 8 by omega)]

/-- Settles O37, each field from the bits of `STATUS`. -/
theorem statusFields : Obligations.StatusFields := by
  intro s
  refine ⟨rfl, ?_, getLsbD_status s 6, getLsbD_status s 7, ?_, ?_, rfl⟩
  · refine BitVec.eq_of_getLsbD_eq fun i hi => ?_
    have hi : i < 6 := hi
    simp only [BitVec.getLsbD_extractLsb, getLsbD_status]
    simp [hi]
  · refine BitVec.eq_of_getLsbD_eq fun i hi => ?_
    have hi : i < 2 := hi
    simp only [BitVec.getLsbD_extractLsb, getLsbD_status]
    simp [show i ≤ 1 by omega, show ¬8 + i < 6 by omega, show 8 + i ≠ 6 by omega]
  · refine BitVec.eq_of_getLsbD_eq fun i hi => ?_
    simp only [BitVec.getLsbD_extractLsb, getLsbD_status]
    simp [show ¬10 + i < 6 by omega, show 10 + i ≠ 6 by omega, show ¬10 + i < 8 by omega,
      show 10 + i - 8 = 2 + i by omega]

/-- `isqrt(p * 2^64)` for the first eight primes, from which R24 takes the low 32 bits. -/
def primeRoots : List Nat :=
  [0x16a09e667, 0x1bb67ae85, 0x23c6ef372, 0x2a54ff53a, 0x3510e527f, 0x39b05688c, 0x41f83d9ab,
    0x45be0cd19]

/-- Settles O13, with the exact roots as witnesses. -/
theorem initialValueRom : Obligations.InitialValueRom := by
  refine ⟨rfl, fun i hi => ⟨primeRoots.getD i 0, ?_⟩⟩
  revert i
  decide

/-- Settles O55: the model's reset state is written out with these values. -/
theorem resetState : Obligations.ResetState :=
  ⟨rfl, rfl, rfl, rfl, rfl, rfl, rfl⟩

end Sys2Proof.Machine

/-! The blocks that UPDATE and FINALIZE compress, as byte lists, and the proofs about the bytes of `BUF`
that reach nothing (spec/10_state.md R26, spec/20_memory.md R52). -/

namespace Sys2Proof.Machine

variable {s t : State} {w : CmdWord}

/-! ### The blocks the engine compresses, as byte lists -/

/-- A read from index 0 up to the end of a stored sequence: what was there before it, then the
sequence. -/
theorem Memory.readBytes_writeBytes (bs : List Byte) (m : Memory) (i : Nat) :
    (m.writeBytes i bs).readBytes 0 (i + bs.length) = m.readBytes 0 i ++ bs := by
  apply List.ext_getElem (by simp)
  intro a ha _
  rw [length_readBytes] at ha
  rw [getElem_readBytes, Nat.zero_add, read_writeBytes]
  by_cases hi : i ≤ a
  · rw [if_pos ⟨hi, ha⟩, List.getElem_append_right (by simpa using hi)]
    simp only [length_readBytes]
    exact List.getD_eq_getElem _ _ (by omega)
  · rw [if_neg (by omega), List.getElem_append_left (by simp; omega), getElem_readBytes, Nat.zero_add]

/-- The message bytes that wait in `BUF[0..BUFLEN-1]` (R25). -/
def pendingTail (s : State) : List Byte := s.buf.readBytes 0 s.buflen.toNat

@[simp] theorem length_pendingTail (s : State) : (pendingTail s).length = s.buflen.toNat := by
  simp [pendingTail]

/-- The tail of a message with the marker and zeros up to index `j` (R171 to R173). -/
def padTo (j : Nat) (tail : List Byte) : List Byte :=
  tail ++ 0x80 :: List.replicate (j - tail.length) 0

theorem length_padTo {j : Nat} {tail : List Byte} (h : tail.length ≤ j) :
    (padTo j tail).length = j + 1 := by
  simp [padTo]; omega

theorem readBytes_paddedBuf (m : Memory) {n j : Nat} (h : n ≤ j) :
    (paddedBuf m n j).readBytes 0 (j + 1) = padTo j (m.readBytes 0 n) := by
  have hmark : (m.writeBytes n [0x80]).readBytes 0 (n + 1) = m.readBytes 0 n ++ [0x80] :=
    Memory.readBytes_writeBytes [0x80] m n
  have hzero := Memory.readBytes_writeBytes (List.replicate (j + 1 - (n + 1)) 0)
    (m.writeBytes n [0x80]) (n + 1)
  rw [List.length_replicate, show n + 1 + (j + 1 - (n + 1)) = j + 1 by omega, hmark] at hzero
  rw [paddedBuf, hzero, padTo, Memory.length_readBytes, Nat.add_sub_add_right, List.append_assoc]
  rfl

/-- The block of a trigger is the 63 waiting bytes and the new one (R144). -/
theorem absorbed_h_of_eq (b : Byte) (h : s.buflen.toNat = 63) :
    (absorbed b s).h = compress s.h (pendingTail s ++ [b]) := by
  have hblk : (s.buf.write 63 b).readBytes 0 64 = s.buf.readBytes 0 63 ++ [b] :=
    Memory.readBytes_writeBytes [b] s.buf 63
  rw [absorbed_of_eq b h, pendingTail, h, hblk]

theorem absorbed_h_of_lt (b : Byte) (h : s.buflen.toNat < 63) : (absorbed b s).h = s.h := by
  rw [absorbed_of_lt b h]

/-- The last block of a FINALIZE: what stands below the length field, then the length (R175). -/
theorem readBytes_lastBuf (s : State) :
    (lastBuf s).readBytes 0 64 = (padded s).buf.readBytes 0 56 ++ bytesBE (messageBits s) 8 :=
  Memory.readBytes_writeBytes (bytesBE (messageBits s) 8) (padded s).buf 56

/-- FINALIZE with one block left (R172, R176). -/
theorem finalized_h_of_lt (h : s.buflen.toNat < 56) :
    (finalized s).h = compress s.h (padTo 55 (pendingTail s) ++ bytesBE (messageBits s) 8) := by
  rw [finalized_h, readBytes_lastBuf, padded_of_lt h, readBytes_paddedBuf _ (by omega), pendingTail]

/-- FINALIZE with two blocks left (R173, R176). -/
theorem finalized_h_of_ge (h : 56 ≤ s.buflen.toNat) :
    (finalized s).h = compress (compress s.h (padTo 63 (pendingTail s)))
      (List.replicate 56 0 ++ bytesBE (messageBits s) 8) := by
  have hn := s.buflen.isLt
  have hzero (m : Memory) : (m.writeBytes 0 (List.replicate (55 + 1 - 0) 0)).readBytes 0 56 =
      List.replicate 56 0 := Memory.readBytes_writeBytes (List.replicate 56 0) m 0
  rw [finalized_h, readBytes_lastBuf, padded_of_ge h]
  simp only [hzero]
  rw [readBytes_paddedBuf _ (by omega), pendingTail]

/-! ### What writes `H` and `BUF` -/

theorem execute_h_writers (h : execute w s = .next t) (hne : t.h ≠ s.h) :
    (decode w = .ok .init ∧ t.h = h0Rom) ∨
    ((∃ b, decode w = .ok (.update b)) ∧ s.buflen.toNat = 63 ∧
      ∃ blk, blk.length = 64 ∧ t.h = compress s.h blk) ∨
    (decode w = .ok .finalize ∧
      ((s.buflen.toNat < 56 ∧ ∃ blk, blk.length = 64 ∧ t.h = compress s.h blk) ∨
        (56 ≤ s.buflen.toNat ∧ ∃ blk blk', blk.length = 64 ∧ blk'.length = 64 ∧
          t.h = compress (compress s.h blk) blk'))) := by
  have hn := s.buflen.isLt
  rcases execute_effect h with
    ⟨rfl | ⟨e, rfl⟩, -⟩ | ⟨hd, rfl⟩ | ⟨b, hd, -, rfl⟩ | ⟨hd, -, -, rfl⟩
  · exact absurd rfl hne
  · exact absurd rfl hne
  · exact .inl ⟨hd, rfl⟩
  · by_cases h63 : s.buflen.toNat = 63
    · exact .inr (.inl ⟨⟨b, hd⟩, h63, _, by simp [h63], absorbed_h_of_eq b h63⟩)
    · exact absurd (absorbed_h_of_lt b (by omega)) hne
  · refine .inr (.inr ⟨hd, ?_⟩)
    by_cases h56 : s.buflen.toNat < 56
    · refine .inl ⟨h56, _, ?_, finalized_h_of_lt h56⟩
      simp [length_padTo (j := 55) (tail := pendingTail s) (by simp; omega)]
    · refine .inr ⟨by omega, _, _, ?_, ?_, finalized_h_of_ge (by omega)⟩
      · exact length_padTo (by simp; omega)
      · simp

/-- Settles O30: a reset edge loads `H0`, and the word an edge accepts writes `H` as
`execute_h_writers` says. -/
theorem hashStateWriters : Obligations.HashStateWriters := by
  refine ⟨rfl, fun s t h hne => ?_⟩
  rcases step_engine_cases h with ⟨hr, rfl⟩ | ⟨-, -, hsame⟩ | ⟨w, u, hacc, hex, rfl⟩
  · exact .inl ⟨hr, rfl⟩
  · exact absurd hsame.h_eq hne
  · exact .inr ⟨w, hacc, execute_h_writers (s := acceptState s) (t := u) hex hne⟩

/-- FINALIZE writes no byte outside `BUF` (R13, R50). -/
theorem read_lastBuf_of_ge (s : State) {a : Nat} (ha : 64 ≤ a) : (lastBuf s).read a = s.buf.read a := by
  have hn := s.buflen.isLt
  have hpad (j : Nat) (hj : j < 64) : (paddedBuf s.buf s.buflen.toNat j).read a = s.buf.read a := by
    rw [read_paddedBuf, if_neg (by omega), if_neg (by omega)]
  have hzero (m : Memory) :
      (m.writeBytes 0 (List.replicate (55 + 1 - 0) 0)).read a = m.read a := by
    rw [Memory.read_writeZeros, if_neg (by omega)]
  rw [read_lastBuf, if_neg (by omega)]
  by_cases h56 : s.buflen.toNat < 56
  · rw [padded_of_lt h56]
    simp only [hpad 55 (by omega)]
  · rw [padded_of_ge (by omega)]
    simp only [hzero, hpad 63 (by omega)]

theorem execute_buf_writers {a : Nat} (h : execute w s = .next t) (hne : t.buf.read a ≠ s.buf.read a) :
    a < 64 ∧
      ((a = s.buflen.toNat ∧ ∃ b, decode w = .ok (.update b) ∧ t.buf.read a = b) ∨
        decode w = .ok .finalize) := by
  rcases execute_effect h with
    ⟨rfl | ⟨e, rfl⟩, -⟩ | ⟨-, rfl⟩ | ⟨b, hd, -, rfl⟩ | ⟨hd, -, -, rfl⟩
  · exact absurd rfl hne
  · exact absurd rfl hne
  · exact absurd rfl hne
  · rw [absorbed_buf, Memory.read_write] at hne ⊢
    by_cases ha : a = s.buflen.toNat
    · exact ⟨ha ▸ s.buflen.isLt, .inl ⟨ha, b, hd, if_pos ha⟩⟩
    · exact absurd (if_neg ha) hne
  · refine ⟨?_, .inr hd⟩
    by_contra ha
    exact hne (read_lastBuf_of_ge s (by omega))

/-- Settles O36: outside a reset edge only the accepted word writes `BUF`, as `execute_buf_writers`
says. -/
theorem pendingBufferWriters : Obligations.PendingBufferWriters := by
  intro s t h hr a hne
  rcases step_engine_cases h with ⟨hr', -⟩ | ⟨-, -, hsame⟩ | ⟨w, u, hacc, hex, rfl⟩
  · simp [hr] at hr'
  · exact absurd (by rw [hsame.buf_eq]) hne
  · obtain ⟨ha, hw⟩ := execute_buf_writers (s := acceptState s) (t := u) hex hne
    exact ⟨ha, w, hacc, hw⟩

/-! ### The bytes that reach nothing -/

/-- FINALIZE writes these six fields and no others (R170 to R178). -/
theorem finalized_eq (s : State) :
    finalized s = { s with
      buf := lastBuf s, h := (finalized s).h, dg := serialize (finalized s).h, fin := true, buflen := 0,
      tbl := messageBits s } := by
  simp [finalized]

section stale
variable {m : Memory} (hfill : ∀ a, a < s.buflen.toNat → s.buf.read a = m.read a)
include hfill

theorem pendingTail_congr : pendingTail { s with buf := m } = pendingTail s :=
  (Memory.readBytes_congr fun a _ ha => hfill a (by simpa using ha)).symm

/-- The engine compresses the waiting bytes and no others. -/
theorem finalized_h_congr : (finalized { s with buf := m }).h = (finalized s).h := by
  have htail := pendingTail_congr hfill
  by_cases h56 : s.buflen.toNat < 56
  · rw [finalized_h_of_lt h56, finalized_h_of_lt (s := { s with buf := m }) h56, htail]
    rfl
  · have h56 : 56 ≤ s.buflen.toNat := by omega
    rw [finalized_h_of_ge h56, finalized_h_of_ge (s := { s with buf := m }) h56, htail]
    rfl

theorem finalized_agree : AgreeUpToStale (finalized s) (finalized { s with buf := m }) where
  rest := by
    rw [finalized_eq { s with buf := m }, finalized_h_congr hfill, finalized_eq s]
    rfl
  filled _ ha := absurd ha (by simp)

theorem absorbed_agree (b : Byte) : AgreeUpToStale (absorbed b s) (absorbed b { s with buf := m }) := by
  have hn := s.buflen.isLt
  by_cases h63 : s.buflen.toNat = 63
  · have hh : (absorbed b { s with buf := m }).h = (absorbed b s).h := by
      rw [absorbed_h_of_eq b h63, absorbed_h_of_eq (s := { s with buf := m }) b h63,
        pendingTail_congr hfill]
    rw [absorbed_of_eq b h63, absorbed_of_eq (s := { s with buf := m }) b h63] at hh ⊢
    exact ⟨by simpa using hh.symm, fun a ha => absurd ha (by simp)⟩
  · rw [absorbed_of_lt b (by omega), absorbed_of_lt (s := { s with buf := m }) b (by dsimp only; omega)]
    refine ⟨rfl, fun a ha => ?_⟩
    rw [buflen_succ (by omega)] at ha
    simp only [Memory.read_write]
    split
    · rfl
    · exact hfill a (by omega)

end stale

/-- Settles O48: the checks of a word read no byte of `BUF`, and what passes them compresses the bytes
below `BUFLEN` only. -/
theorem staleBytesAreNeverRead : Obligations.StaleBytesAreNeverRead := by
  rintro w s s' t ⟨hrest, hfill⟩ h
  generalize s'.buf = m at hrest hfill
  subst hrest
  cases hd : decode w with
  | error e =>
    rw [execute_of_error hd] at h ⊢
    cases h
    exact ⟨_, rfl, rfl, hfill⟩
  | ok i =>
    rw [execute_of_ok hd] at h ⊢
    cases i with
    | nop => cases h; exact ⟨_, rfl, rfl, hfill⟩
    | init => cases h; exact ⟨_, rfl, rfl, fun a ha => absurd ha (by simp)⟩
    | update b =>
      rw [exec_update] at h ⊢
      cases h
      refine ⟨_, rfl, ?_⟩
      dsimp only
      split_ifs
      · exact ⟨rfl, hfill⟩
      · exact ⟨rfl, hfill⟩
      · exact ⟨rfl, hfill⟩
      · exact absorbed_agree hfill b
    | finalize =>
      rw [exec_finalize] at h ⊢
      cases h
      refine ⟨_, rfl, ?_⟩
      dsimp only
      split_ifs
      · exact ⟨rfl, hfill⟩
      · exact ⟨rfl, hfill⟩
      · exact finalized_agree hfill

end Sys2Proof.Machine

/-! The message the engine absorbs (spec/10_state.md R35, R36; spec/42_finalize.md R180). -/

namespace Sys2Proof.Machine

variable {s t : State} {w : CmdWord} {m : List Byte}

/-! ### Blocks of a byte sequence -/

theorem takeBlocks_append (q k : Nat) {l l' : List Byte} (h : l.length = 64 * q) :
    takeBlocks (q + k) (l ++ l') = takeBlocks q l ++ takeBlocks k l' := by
  induction q generalizing l with
  | zero => simp [List.length_eq_zero_iff.1 h, takeBlocks]
  | succ q ih =>
    have hdrop := ih (l := l.drop 64) (by simp; omega)
    simp [Nat.succ_add, takeBlocks, List.take_append_of_le_length (show 64 ≤ l.length by omega),
      List.drop_append_of_le_length (show 64 ≤ l.length by omega), hdrop]

/-- Complete blocks in front are cut by themselves. -/
theorem cutBlocks_append {l : List Byte} (l' : List Byte) (h : 64 ∣ l.length) :
    cutBlocks (l ++ l') = cutBlocks l ++ cutBlocks l' := by
  obtain ⟨q, hq⟩ := h
  rw [cutBlocks, cutBlocks, cutBlocks, ← takeBlocks_append _ _ (by omega), List.length_append]
  congr 1
  omega

theorem cutBlocks_of_lt {l : List Byte} (h : l.length < 64) : cutBlocks l = [] := by
  rw [cutBlocks, Nat.div_eq_of_lt h, takeBlocks]

theorem cutBlocks_block {l : List Byte} (h : l.length = 64) : cutBlocks l = [l] := by
  simp [cutBlocks, h, takeBlocks, List.take_of_length_le h.le]

/-- One more block is one more compression. -/
theorem hashBlocks_append_block {l blk : List Byte} (h : 64 ∣ l.length) (hb : blk.length = 64) :
    hashBlocks (cutBlocks (l ++ blk)) = compress (hashBlocks (cutBlocks l)) blk := by
  simp [cutBlocks_append blk h, cutBlocks_block hb, hashBlocks]

/-! ### The accounting of the message -/

/-- R35 with the message cut in two: the complete blocks, and the bytes that wait in `BUF`. -/
theorem accounts_iff :
    Accounts m s ↔ ∃ blocks, m = blocks ++ pendingTail s ∧ 64 ∣ blocks.length ∧
      s.tbl.toNat = 8 * blocks.length ∧ s.h = hashBlocks (cutBlocks blocks) := by
  have hn := s.buflen.isLt
  have hcut (l : List Byte) (h : 64 ∣ l.length) : cutBlocks (l ++ pendingTail s) = cutBlocks l := by
    rw [cutBlocks_append _ h, cutBlocks_of_lt (l := pendingTail s) (by simpa using hn), List.append_nil]
  constructor
  · rintro ⟨htbl, hbuflen, htail, hhash⟩
    have hm : m = m.take (m.length - s.buflen.toNat) ++ pendingTail s := by
      rw [pendingTail, htail, List.take_append_drop]
    have hlen : 64 ∣ (m.take (m.length - s.buflen.toNat)).length := by
      rw [List.length_take]; omega
    refine ⟨_, hm, hlen, ?_, ?_⟩
    · rw [List.length_take]; omega
    · rw [hhash, ← hcut _ hlen, ← hm]
  · rintro ⟨blocks, rfl, hlen, htbl, hhash⟩
    constructor
    · simp; omega
    · simp; omega
    · simp [pendingTail]
    · rw [hhash, hcut _ hlen]

theorem Accounts.of_sameEngine (h : SameEngine s t) (ha : Accounts m s) : Accounts m t := by
  unfold SameEngine at h
  rw [← h]
  exact ⟨ha.tbl, ha.buflen, ha.tail, ha.hash⟩

theorem Accounts.raise (e : EngineError) (ha : Accounts m s) : Accounts m (raise e s) :=
  ⟨ha.tbl, ha.buflen, ha.tail, ha.hash⟩

theorem pendingTail_of_zero (h : s.buflen = 0) : pendingTail s = [] := by
  simp [pendingTail, h, Memory.readBytes]

/-- The empty message is accounted for by every state with the initial values (R35). -/
theorem accounts_nil (hh : s.h = h0Rom) (hn : s.buflen = 0) (ht : s.tbl = 0) : Accounts [] s :=
  accounts_iff.2 ⟨[], by simp [pendingTail_of_zero hn], by simp, by simp [ht], hh⟩

theorem pendingTail_absorbed_of_lt (b : Byte) (h : s.buflen.toNat < 63) :
    pendingTail (absorbed b s) = pendingTail s ++ [b] := by
  rw [absorbed_of_lt b h]
  simp only [pendingTail, buflen_succ h]
  exact Memory.readBytes_writeBytes [b] s.buf s.buflen.toNat

/-- UPDATE appends its byte: to the waiting bytes, or as the last of a complete block. -/
theorem Accounts.absorbed (b : Byte) (ha : Accounts m s) (hs : updateAccepted s = true) :
    Accounts (m ++ [b]) (absorbed b s) := by
  obtain ⟨-, -, hl⟩ := updateAccepted_iff.1 hs
  have hn := s.buflen.isLt
  obtain ⟨blocks, rfl, hlen, htbl, hhash⟩ := accounts_iff.1 ha
  rw [accounts_iff, List.append_assoc]
  by_cases h63 : s.buflen.toNat = 63
  · have hblk : (pendingTail s ++ [b]).length = 64 := by simp [h63]
    have hbuflen : (Machine.absorbed b s).buflen = 0 := by rw [absorbed_of_eq b h63]
    have htbl' : (Machine.absorbed b s).tbl.toNat = s.tbl.toNat + 512 := by
      rw [absorbed_of_eq b h63]
      exact tbl_add_512 (by omega)
    refine ⟨blocks ++ (pendingTail s ++ [b]), ?_, ?_, ?_, ?_⟩
    · rw [pendingTail_of_zero hbuflen, List.append_nil]
    · rw [List.length_append]; omega
    · rw [List.length_append]; omega
    · rw [absorbed_h_of_eq b h63, hashBlocks_append_block hlen hblk, hhash]
  · have hlt : s.buflen.toNat < 63 := by omega
    refine ⟨blocks, by rw [pendingTail_absorbed_of_lt b hlt], hlen, ?_, ?_⟩
    · rw [absorbed_of_lt b hlt]; exact htbl
    · rw [absorbed_h_of_lt b hlt]; exact hhash

theorem execute_accounts (ha : s.fin = false → Accounts m s) (h : execute w s = .next t)
    (ht : t.fin = false) : Accounts (messageAfter w s m) t := by
  rcases execute_effect h with
    ⟨rfl | ⟨e, rfl⟩, hm⟩ | ⟨hd, rfl⟩ | ⟨b, hd, hs, rfl⟩ | ⟨-, -, -, rfl⟩
  · rw [hm]; exact ha ht
  · rw [hm]; exact (ha ht).raise e
  · rw [messageAfter_init hd]; exact accounts_nil rfl rfl rfl
  · obtain ⟨-, hactive, -⟩ := updateAccepted_iff.1 hs
    rw [messageAfter_update hd, if_pos hs]
    exact (ha hactive).absorbed b hs
  · cases ht

/-- Settles O42: the initial values account for the empty message, and every word keeps the accounting. -/
theorem messageAccounting : Obligations.MessageAccounting :=
  ⟨accounts_nil rfl rfl rfl, fun _ _ _ _ ha h ht => execute_accounts ha h ht⟩

/-! ### The digest of the message -/

/-- The padded message with one block left past the complete ones (R180). -/
theorem padMessage_of_lt {blocks tail : List Byte} (hb : 64 ∣ blocks.length) (ht : tail.length < 56) :
    padMessage (blocks ++ tail) =
      blocks ++ (padTo 55 tail ++ bytesBE (BitVec.ofNat 64 (8 * (blocks ++ tail).length)) 8) := by
  have hz : zeroCount (blocks ++ tail).length = 55 - tail.length := by
    rw [zeroCount, List.length_append]; omega
  rw [padMessage, hz]
  simp [padTo]

/-- The padded message with two blocks left past the complete ones (R180). -/
theorem padMessage_of_ge {blocks tail : List Byte} (hb : 64 ∣ blocks.length) (ht : 56 ≤ tail.length)
    (ht' : tail.length < 64) :
    padMessage (blocks ++ tail) = blocks ++ padTo 63 tail ++
      (List.replicate 56 0 ++ bytesBE (BitVec.ofNat 64 (8 * (blocks ++ tail).length)) 8) := by
  have hz : zeroCount (blocks ++ tail).length = (63 - tail.length) + 56 := by
    rw [zeroCount, List.length_append]; omega
  rw [padMessage, hz, List.replicate_add]
  simp only [padTo, List.append_assoc, List.cons_append, List.nil_append]

/-- `L` is the message's length in bits, mod 2^64 (R174). -/
theorem Accounts.messageBits_eq (ha : Accounts m s) : messageBits s = BitVec.ofNat 64 (8 * m.length) := by
  have htbl := ha.tbl
  have hbuflen := ha.buflen
  apply BitVec.eq_of_toNat_eq
  rw [messageBits, BitVec.toNat_add, BitVec.toNat_ofNat, BitVec.toNat_ofNat]
  omega

theorem Accounts.finalized_h (ha : Accounts m s) :
    (finalized s).h = hashBlocks (cutBlocks (padMessage m)) := by
  have hn := s.buflen.isLt
  have hbits := ha.messageBits_eq
  obtain ⟨blocks, rfl, hlen, -, hhash⟩ := accounts_iff.1 ha
  have htail := length_pendingTail s
  by_cases h56 : s.buflen.toNat < 56
  · have hpad := length_padTo (j := 55) (tail := pendingTail s) (by omega)
    rw [finalized_h_of_lt h56, padMessage_of_lt hlen (by omega),
      hashBlocks_append_block hlen (by simp [hpad]), hhash, hbits]
  · have hpad := length_padTo (j := 63) (tail := pendingTail s) (by omega)
    rw [finalized_h_of_ge (by omega), padMessage_of_ge hlen (by omega) (by omega),
      hashBlocks_append_block (by rw [List.length_append]; omega) (by simp),
      hashBlocks_append_block hlen hpad, hhash, hbits]

theorem Accounts.finalized_dg (ha : Accounts m s) : (finalized s).dg = sha256 m := by
  rw [Machine.finalized_dg, ha.finalized_h, sha256]

/-- Settles O43: the blocks FINALIZE compresses are those of the padded message. -/
theorem finalizeHashesTheMessage : Obligations.FinalizeHashesTheMessage := by
  intro s m he hf ha hm
  have hlen : s.tbl.toNat + 8 * s.buflen.toNat = 8 * m.length := by
    rw [ha.tbl, ha.buflen]; omega
  have hfits : s.tbl.toNat + 8 * s.buflen.toNat < 2 ^ 64 := by
    rw [Config.maxMessageBytes] at hm; omega
  refine ⟨finalized s, by simp [exec_finalize, he, hf], ha.finalized_dg, ?_, rfl, by simp [he], ?_⟩
  · rw [finalized_tbl, messageBits_toNat hfits, hlen]
  · simp [status, he, finBit, ErrCode.bits]

/-! ### A step and the message -/

theorem TracksMessage.of_sameEngine (h : SameEngine s t) (ht : TracksMessage m s) : TracksMessage m t := by
  refine ⟨fun hf => ?_, fun hf => ?_⟩
  · exact (ht.active (h.fin_eq ▸ hf)).of_sameEngine h
  · rw [h.dg_eq]
    exact ht.final (h.fin_eq ▸ hf)

theorem tracksMessage_nil (hf : s.fin = false) (hh : s.h = h0Rom) (hn : s.buflen = 0) (ht : s.tbl = 0) :
    TracksMessage [] s :=
  ⟨fun _ => accounts_nil hh hn ht, by simp [hf]⟩

/-- A word that is executed keeps track of the message (R35, R36). -/
theorem execute_tracks (ht : TracksMessage m s) (h : execute w s = .next t) :
    TracksMessage (messageAfter w s m) t := by
  refine ⟨execute_accounts ht.active h, fun hf => ?_⟩
  rcases execute_effect h with
    ⟨rfl | ⟨e, rfl⟩, hm⟩ | ⟨-, rfl⟩ | ⟨b, -, hs, rfl⟩ | ⟨hd, -, hactive, rfl⟩
  · rw [hm]; exact ht.final hf
  · rw [hm]; exact ht.final hf
  · cases hf
  · obtain ⟨-, hactive, -⟩ := updateAccepted_iff.1 hs
    simp [hactive] at hf
  · rw [messageAfter_finalize hd]; exact (ht.active hactive).finalized_dg

theorem messageAfterStep_of_accepts (h : Accepts s w) (m : List Byte) :
    messageAfterStep s m = messageAfter w s m := by
  obtain ⟨hr, hb, hw⟩ := h
  simp [messageAfterStep, hr, cmdReady, hb, hw]

theorem messageAfterStep_of_not_accepts (hr : (nextPins s).rst = false) (h : ∀ w, ¬Accepts s w)
    (m : List Byte) : messageAfterStep s m = m := by
  cases hw : (nextPins s).word with
  | none => simp [messageAfterStep, hr, hw]
  | some w =>
    have hb : s.busy ≠ 0 := fun hb => h w ⟨hr, hb, hw⟩
    simp [messageAfterStep, hr, cmdReady, hb]

/-- Settles O60: a reset edge starts the empty message, an edge that accepts no word leaves engine and
message alone, and the accepted word keeps track of it. -/
theorem everyStepTracksTheMessage : Obligations.EveryStepTracksTheMessage := by
  refine ⟨tracksMessage_nil rfl rfl rfl rfl, fun s t m ht h => ?_⟩
  rcases step_engine_cases h with ⟨hr, rfl⟩ | ⟨hr, hno, hsame⟩ | ⟨w, u, hacc, hex, rfl⟩
  · rw [messageAfterStep, if_pos hr]
    exact tracksMessage_nil rfl rfl rfl rfl
  · rw [messageAfterStep_of_not_accepts hr hno]
    exact ht.of_sameEngine hsame
  · rw [messageAfterStep_of_accepts hacc]
    exact (execute_tracks (ht.of_sameEngine (sameEngine_acceptState s)) hex).of_sameEngine
      (sameEngine_startBusy u)

end Sys2Proof.Machine

/-! The effect of a command sequence on the port does not depend on its timing (spec/20_memory.md R59,
spec/70_reset_and_hazards.md R239): a word reads and writes none of the port's fields, and the edges with
`cmd_ready = 0` write nothing else. -/

namespace Sys2Proof.Machine

variable {s t e u : State} {w : CmdWord}

/-! ### A word and the port's fields -/

/-- The engine of `s` behind the port of `p`: `SameEngine s t` says that `s.withPortOf t` is `t`. -/
def State.withPortOf (s p : State) : State :=
  { s with pins := p.pins, held := p.held, busy := p.busy, latency := p.latency,
           freeCount := p.freeCount }

section withPortOfFields
variable (s p : State)
@[simp] theorem withPortOf_pins : (s.withPortOf p).pins = p.pins := rfl
@[simp] theorem withPortOf_held : (s.withPortOf p).held = p.held := rfl
@[simp] theorem withPortOf_latency : (s.withPortOf p).latency = p.latency := rfl
end withPortOfFields

theorem sameEngine_iff : SameEngine s t ↔ s.withPortOf t = t := Iff.rfl

theorem SameEngine.trans (hst : SameEngine s t) (htu : SameEngine t u) : SameEngine s u :=
  calc s.withPortOf u
    _ = (s.withPortOf t).withPortOf u := rfl
    _ = t.withPortOf u := by rw [sameEngine_iff.1 hst]
    _ = u := htu

theorem absorbed_withPortOf (b : Byte) (s p : State) :
    absorbed b (s.withPortOf p) = (absorbed b s).withPortOf p := by
  unfold absorbed
  rw [apply_ite (State.withPortOf · p)]
  rfl

theorem padded_withPortOf (s p : State) : padded (s.withPortOf p) = (padded s).withPortOf p := by
  unfold padded
  rw [apply_ite (State.withPortOf · p)]
  simp only [State.withPortOf]
  rfl

theorem finalized_withPortOf (s p : State) : finalized (s.withPortOf p) = (finalized s).withPortOf p := by
  unfold finalized lastBuf
  rw [padded_withPortOf]
  rfl

/-- A word reads no field of the port, and writes none. -/
theorem execute_withPortOf (p : State) (h : execute w s = .next t) :
    execute w (s.withPortOf p) = .next (t.withPortOf p) := by
  cases hd : decode w with
  | error e =>
    rw [execute_of_error hd] at h ⊢
    cases h
    rfl
  | ok i =>
    rw [execute_of_ok hd] at h ⊢
    cases i with
    | nop => cases h; rfl
    | init => cases h; rfl
    | update b =>
      rw [exec_update] at h ⊢
      cases h
      rw [absorbed_withPortOf]
      simp only [apply_ite (State.withPortOf · p)]
      rfl
    | finalize =>
      rw [exec_finalize] at h ⊢
      cases h
      rw [finalized_withPortOf]
      simp only [apply_ite (State.withPortOf · p)]
      rfl

theorem execute_of_sameEngine (hes : SameEngine e s) (h : execute w e = .next u) :
    execute w s = .next (u.withPortOf s) := by
  rw [← execute_withPortOf s h, sameEngine_iff.1 hes]

/-- Every word in every state is answered by a state (R140). -/
theorem exists_execute (w : CmdWord) (s : State) : ∃ t, execute w s = .next t := by
  cases hd : decode w with
  | error e => exact ⟨_, execute_of_error hd s⟩
  | ok i =>
    rw [execute_of_ok hd]
    cases i with
    | nop => exact ⟨_, exec_nop s⟩
    | init => exact ⟨_, exec_init s⟩
    | update b => exact ⟨_, exec_update b s⟩
    | finalize => exact ⟨_, exec_finalize s⟩

theorem executeAll_cons_of_next (ws : List CmdWord) (h : execute w s = .next t) :
    executeAll (w :: ws) s = executeAll ws t := by
  simp [executeAll, h]

/-! ### The edges of one command -/

/-- The word held after the edges `ps`, none of which accepts one (R234). -/
def heldAfter (held : Option CmdWord) (ps : List Pins) : Option CmdWord :=
  ps.foldl (fun _ p => p.word) held

/-- A run to the first edge with `cmd_ready = 1` writes fields of the port and no others (R73, R234). -/
theorem core_run_busy {front rest : List Pins} (hp : s.pins = front ++ rest)
    (hlen : front.length = s.busy) (hk : HostKeeps s.held front) :
    core.run s.busy s = .next { s with
      pins := rest, held := heldAfter s.held front, busy := 0, freeCount := s.freeCount + s.busy } := by
  induction front generalizing s with
  | nil =>
    cases s
    cases hp
    cases hlen
    rfl
  | cons p front ih =>
    obtain ⟨hr, hs, hk⟩ := hk
    have hnext : nextPins s = p := by rw [nextPins, hp]; rfl
    have hb : s.busy = front.length + 1 := hlen.symm
    have hstep : step s = .next (busyEdge p s) := by
      rw [← hnext] at hr hs ⊢
      exact step_busy hr hs (by omega)
    have hrun := ih (s := busyEdge p s) (by simp [hp]) (by simp [hb]) hk
    rw [hb, core_run_succ _ hstep]
    simpa [hb, heldAfter, busyEdge, takePins, Nat.add_assoc, Nat.add_comm 1] using hrun

theorem hostKeeps_idle (n : Nat) : HostKeeps none (List.replicate n .idle) := by
  induction n with
  | zero => trivial
  | succ n ih => exact ⟨rfl, rfl, ih⟩

theorem heldAfter_idle (n : Nat) : heldAfter none (List.replicate n .idle) = none := by
  induction n with
  | zero => rfl
  | succ n ih => exact ih

/-- The edge that accepts the word `w` leaves the engine as `w` leaves it, and the port's next number of
edges begins (R73). -/
theorem step_present (hb : s.busy = 0) (hh : s.held = none) {rest : List Pins}
    (hp : s.pins = .present w :: rest) (hes : SameEngine e s) (h : execute w e = .next u) :
    step s = .next (startBusy (u.withPortOf (acceptState s))) := by
  have hnext : nextPins s = .present w := by rw [nextPins, hp]; rfl
  have hex := execute_of_sameEngine (hes.trans (sameEngine_acceptState s)) h
  rw [step_accept (by simp [hnext]) (by simp [hh]) hb (by simp [hnext]), hnext]
  exact acceptEdge_of_next hex

/-- The engine waits for the next command with `cmd_ready = 1`: what the host drives from here on is `ps`,
and the numbers of busy edges to come are `ls`. -/
structure Waits (ps : List Pins) (ls : List Nat) (s : State) : Prop where
  busy : s.busy = 0
  held : s.held = none
  pins : s.pins = ps
  latency : s.latency = ls

/-- One command with its `n` busy edges has the effect `Execute` says, and the engine waits again (R239). -/
theorem core_run_command {n : Nat} {rest : List Pins} {ls : List Nat}
    (hs : Waits (.present w :: List.replicate n .idle ++ rest) (n :: ls) s)
    (hes : SameEngine e s) (h : execute w e = .next u) :
    ∃ t, core.run (n + 1) s = .next t ∧ SameEngine u t ∧ Waits rest ls t := by
  have hstep := step_present hs.busy hs.held hs.pins hes h
  generalize hv : startBusy (u.withPortOf (acceptState s)) = v at hstep
  have hsame : SameEngine u v := hv ▸ rfl
  have hpins : v.pins = List.replicate n .idle ++ rest := by simp [← hv, hs.pins]
  have hheld : v.held = none := by simp [← hv]
  have hbusy : v.busy = n := by simp [← hv, hs.latency]
  have hlat : v.latency = ls := by simp [← hv, hs.latency]
  have hrun := core_run_busy hpins (by simp [hbusy]) (hheld ▸ hostKeeps_idle n)
  rw [hbusy, hheld, heldAfter_idle] at hrun
  rw [core_run_succ _ hstep, hrun]
  exact ⟨_, rfl, hsame.trans rfl, rfl, rfl, rfl, hlat⟩

/-! ### The edges of a command sequence -/

/-- What a host drives that presents each word for one edge and is idle at the busy edges after it. -/
def pinsOf (cs : List (CmdWord × Nat)) : List Pins :=
  cs.flatMap fun c => .present c.1 :: List.replicate c.2 .idle

/-- A command sequence on the port, from any state whose engine is that of `e`. -/
theorem core_run_commands (cs : List (CmdWord × Nat)) (hs : Waits (pinsOf cs) (cs.map Prod.snd) s)
    (hes : SameEngine e s) :
    ∃ t u, core.run (cs.length + (cs.map Prod.snd).sum) s = .next t ∧
      executeAll (cs.map Prod.fst) e = .next u ∧ SameEngine u t ∧ Waits [] [] t := by
  induction cs generalizing s e with
  | nil => exact ⟨s, e, core_run_zero s, rfl, hes, hs⟩
  | cons c cs ih =>
    obtain ⟨e', he'⟩ := exists_execute c.1 e
    obtain ⟨s', hrun, hes', hs'⟩ := core_run_command hs hes he'
    obtain ⟨t, u, hrun', hall, hsame, ht⟩ := ih hs' hes'
    have hcount : (c :: cs).length + ((c :: cs).map Prod.snd).sum =
        (c.2 + 1) + (cs.length + (cs.map Prod.snd).sum) := by
      simp only [List.length_cons, List.map_cons, List.sum_cons]
      omega
    refine ⟨t, u, ?_, ?_, hsame, ht⟩
    · rw [hcount, core_run_add _ hrun, hrun']
    · rw [List.map_cons, executeAll_cons_of_next _ he', hall]

/-- Settles O59: each command in turn has the effect of `Execute`, whatever its number of busy edges. -/
theorem timingDoesNotChangeResults : Obligations.TimingDoesNotChangeResults := by
  intro cs s hb hh hp hl
  obtain ⟨t, u, hrun, hall, hsame, ht⟩ := core_run_commands cs ⟨hb, hh, hp, hl⟩ (e := s) rfl
  exact ⟨t, u, hrun, hall, hsame, cmdReady_eq_true.2 ht.busy⟩

end Sys2Proof.Machine

/-! The decoder and the encoder as inverses, by the fields of a command word (spec/30_encoding.md R72,
R77 to R79). -/

namespace Sys2Proof

variable {w : CmdWord} {i : Instr} {r : OpcodeRow}

/-! ### The fields of a word -/

/-- Each bit of the word with the fields `f` (R72). -/
theorem CmdFields.getLsbD_toWord (f : CmdFields) {k : Nat} (hk : k < 16) :
    f.toWord.getLsbD k =
      if k < 8 then f.data.getLsbD k else if k < 12 then f.rsv.getLsbD (k - 8)
      else f.op.getLsbD (k - 12) := by
  simp only [toWord, BitVec.getLsbD_or, BitVec.getLsbD_shiftLeft, BitVec.getLsbD_setWidth]
  have hdata (h : ¬k < 8) : f.data.getLsbD k = false := BitVec.getLsbD_of_ge _ _ (by omega)
  split_ifs with h8 h12
  · simp [h8, hk, show k < 12 by omega]
  · simp [h8, h12, hk, hdata h8, show k - 8 < 16 by omega]
  · simp [h8, h12, hk, hdata h8, show k - 12 < 16 by omega,
      BitVec.getLsbD_of_ge f.rsv (k - 8) (by omega)]

/-- The fields make up the whole word. -/
@[simp] theorem CmdFields.toWord_ofWord (w : CmdWord) : (ofWord w).toWord = w := by
  refine BitVec.eq_of_getLsbD_eq fun k hk => ?_
  simp only [getLsbD_toWord _ hk, ofWord, BitVec.getLsbD_extractLsb']
  split_ifs with h8 h12
  · simp [h8]
  · simp [show k - 8 < 4 by omega, show 8 + (k - 8) = k by omega]
  · simp [show k - 12 < 4 by omega, show 12 + (k - 12) = k by omega]

/-- Every triple of fields is some word's. -/
@[simp] theorem CmdFields.ofWord_toWord (f : CmdFields) : ofWord f.toWord = f := by
  have hop : f.toWord.extractLsb' 12 4 = f.op := by
    refine BitVec.eq_of_getLsbD_eq fun k hk => ?_
    simp [getLsbD_toWord f (show 12 + k < 16 by omega), hk, show ¬12 + k < 8 by omega]
  have hrsv : f.toWord.extractLsb' 8 4 = f.rsv := by
    refine BitVec.eq_of_getLsbD_eq fun k hk => ?_
    simp [getLsbD_toWord f (show 8 + k < 16 by omega), hk, show 8 + k < 12 by omega]
  have hdata : f.toWord.extractLsb' 0 8 = f.data := by
    refine BitVec.eq_of_getLsbD_eq fun k hk => ?_
    simp [getLsbD_toWord f (show k < 16 by omega), hk]
  rw [ofWord, hop, hrsv, hdata]

theorem CmdFields.toWord_inj {f g : CmdFields} : f.toWord = g.toWord ↔ f = g :=
  ⟨fun h => by rw [← ofWord_toWord f, h, ofWord_toWord], congrArg toWord⟩

/-! ### The words of the commands -/

theorem legalFields : ∀ i : Instr, Laws.LegalFields.Statement i
  | .nop => Laws.LegalFields.nop
  | .init => Laws.LegalFields.init
  | .update b => Laws.LegalFields.update b
  | .finalize => Laws.LegalFields.finalize

@[simp] theorem ofWord_encode (i : Instr) : CmdFields.ofWord (encode i) = i.fields := (legalFields i).1

theorem toWord_fields (i : Instr) : i.fields.toWord = encode i := by
  rw [← ofWord_encode, CmdFields.toWord_ofWord]

theorem eq_encode_iff : w = encode i ↔ CmdFields.ofWord w = i.fields := by
  rw [← CmdFields.toWord_inj, CmdFields.toWord_ofWord, toWord_fields]

/-- The command that legal fields are written for. -/
def CmdFields.instr (f : CmdFields) : Instr :=
  if f.op = 0 then .nop else if f.op = 1 then .init else if f.op = 2 then .update f.data else .finalize

theorem instr_fields (i : Instr) : i.fields.instr = i := by cases i <;> rfl

theorem encode_injective : Function.Injective encode := fun i j h => by
  rw [← instr_fields i, ← ofWord_encode, h, ofWord_encode, instr_fields]

/-! ### The rows of the opcode map -/

/-- The mask of the UPDATE row clears `DATA` and nothing else. -/
theorem and_updateMask (w : CmdWord) :
    w &&& 0xFF00 = { CmdFields.ofWord w with data := 0 }.toWord := by
  have hmask : ∀ k, k < 16 → (0xFF00 : CmdWord).getLsbD k = decide (8 ≤ k) := by decide
  refine BitVec.eq_of_getLsbD_eq fun k hk => ?_
  rw [BitVec.getLsbD_and, hmask k hk, CmdFields.getLsbD_toWord _ hk]
  conv_lhs => rw [← CmdFields.toWord_ofWord w, CmdFields.getLsbD_toWord _ hk]
  by_cases h8 : k < 8
  · simp [h8]
  · simp [h8, show 8 ≤ k by omega]

theorem and_updateMask_eq_iff :
    w &&& 0xFF00 = 0x2000 ↔ w = encode (.update (CmdFields.ofWord w).data) := by
  have hpattern : (0x2000 : CmdWord) = (CmdFields.mk 2 0 0).toWord := rfl
  rw [and_updateMask, hpattern, CmdFields.toWord_inj, eq_encode_iff]
  obtain ⟨op, rsv, data⟩ := CmdFields.ofWord w
  simp [Instr.fields]

/-- A row matches its command's word, with the word's `DATA` as the operand, and no other. -/
theorem matches_iff (hr : r ∈ opcodeMap) :
    r.matches w = true ↔ w = encode (r.op.toInstr (CmdFields.ofWord w).data) := by
  have hall : w &&& 0xFFFF = w := BitVec.and_allOnes
  simp only [opcodeMap, List.mem_cons, List.not_mem_nil, or_false] at hr
  rw [OpcodeRow.matches, beq_iff_eq]
  rcases hr with rfl | rfl | rfl | rfl
  · rw [hall]; rfl
  · rw [hall]; rfl
  · exact and_updateMask_eq_iff
  · rw [hall]; rfl

/-- The opcode of a command. -/
def Instr.opcode : Instr → Opcode
  | .nop => .nop
  | .init => .init
  | .update _ => .update
  | .finalize => .finalize

theorem opcode_toInstr (b : Byte) (o : Opcode) : (o.toInstr b).opcode = o := by cases o <;> rfl

/-- No word is matched by two rows. -/
theorem row_unique {r' : OpcodeRow} (hr : r ∈ opcodeMap) (hr' : r' ∈ opcodeMap)
    (hm : r.matches w = true) (hm' : r'.matches w = true) : r = r' := by
  have hcmd := encode_injective (((matches_iff hr).1 hm).symm.trans ((matches_iff hr').1 hm'))
  have hop : r.op = r'.op := by rw [← opcode_toInstr _ r.op, hcmd, opcode_toInstr]
  exact List.inj_on_of_nodup_map (f := OpcodeRow.op) (by decide) hr hr' hop

/-- Every command has a row. -/
theorem exists_row (i : Instr) :
    ∃ r ∈ opcodeMap, r.op.toInstr (CmdFields.ofWord (encode i)).data = i := by
  rw [ofWord_encode]
  cases i with
  | nop => exact ⟨⟨.nop, 0x0000, 0xFFFF⟩, by simp [opcodeMap], rfl⟩
  | init => exact ⟨⟨.init, 0x1000, 0xFFFF⟩, by simp [opcodeMap], rfl⟩
  | update b => exact ⟨⟨.update, 0x2000, 0xFF00⟩, by simp [opcodeMap], rfl⟩
  | finalize => exact ⟨⟨.finalize, 0x3000, 0xFFFF⟩, by simp [opcodeMap], rfl⟩

/-! ### What the decoder answers -/

theorem decode_eq_ok_iff_row :
    decode w = .ok i ↔
      ∃ r ∈ opcodeMap, r.matches w = true ∧ r.op.toInstr (CmdFields.ofWord w).data = i := by
  unfold decode
  cases hf : opcodeMap.find? (·.matches w) with
  | none =>
    have hnone := List.find?_eq_none.1 hf
    simp only [reduceCtorEq, false_iff]
    rintro ⟨r, hr, hm, -⟩
    exact hnone r hr hm
  | some r =>
    have hr := List.mem_of_find?_eq_some hf
    have hm : r.matches w = true := List.find?_some (p := fun r : OpcodeRow => r.matches w) hf
    simp only [Except.ok.injEq]
    constructor
    · exact fun h => ⟨r, hr, hm, h⟩
    · rintro ⟨r', hr', hm', h⟩
      rwa [row_unique hr hr' hm hm']

/-- Decoding and encoding agree, both ways. -/
theorem decode_eq_ok_iff : decode w = .ok i ↔ w = encode i := by
  rw [decode_eq_ok_iff_row]
  constructor
  · rintro ⟨r, hr, hm, rfl⟩
    exact (matches_iff hr).1 hm
  · rintro rfl
    obtain ⟨r, hr, hi⟩ := exists_row i
    exact ⟨r, hr, (matches_iff hr).2 (by rw [hi]), hi⟩

@[simp] theorem decode_encode (i : Instr) : decode (encode i) = .ok i := decode_eq_ok_iff.2 rfl

theorem decode_error_reason {e : Illegal} (h : decode w = .error e) :
    e = illegalReason (CmdFields.ofWord w) := by
  unfold decode at h
  split at h
  · cases h
  · cases h; rfl

theorem decode_error_iff : (∃ e, decode w = .error e) ↔ ¬∃ i, decode w = .ok i := by
  cases decode w <;> simp

/-- Settles O5: a word is matched by a row exactly when it is the word of that row's command. -/
theorem decodeEncodeAgree : Obligations.DecodeEncodeAgree := fun _ _ _ => decode_eq_ok_iff

end Sys2Proof

/-! The statements about command words (spec/30_encoding.md R72, R77 to R79). -/

namespace Sys2Proof

variable {w : CmdWord}

/-! ### Legal words -/

/-- Settles O1: the fields of a legal word are its command's. -/
theorem commandWordFields : Obligations.CommandWordFields := by
  refine ⟨fun w => ⟨rfl, rfl, rfl, CmdFields.toWord_ofWord w⟩, CmdFields.ofWord_toWord,
    fun w i h => ?_⟩
  rw [decode_eq_ok_iff.1 h, ofWord_encode]
  cases i with
  | nop => exact ⟨rfl, nofun, fun _ => rfl⟩
  | init => exact ⟨rfl, nofun, fun _ => rfl⟩
  | update b => exact ⟨rfl, fun _ h => Instr.update.inj h, fun h => absurd rfl (h b)⟩
  | finalize => exact ⟨rfl, nofun, fun _ => rfl⟩

/-- A word is legal when exactly one row matches it (R77). -/
theorem exists_decode_ok_iff_one_row :
    (∃ i, decode w = .ok i) ↔ (opcodeMap.filter (·.matches w)).length = 1 := by
  simp only [decode_eq_ok_iff_row]
  constructor
  · rintro ⟨_, r, hr, hm, -⟩
    have hmem : r ∈ opcodeMap.filter (·.matches w) := List.mem_filter.2 ⟨hr, hm⟩
    have hnodup : (opcodeMap.filter (·.matches w)).Nodup := List.Nodup.filter _ (by decide)
    have hall : ∀ r' ∈ opcodeMap.filter (·.matches w), r' = r := fun r' h' =>
      row_unique (List.mem_filter.1 h').1 hr (List.mem_filter.1 h').2 hm
    rw [List.eq_replicate_of_mem hall, List.nodup_replicate] at hnodup
    exact le_antisymm hnodup (List.length_pos_of_mem hmem)
  · intro h
    obtain ⟨r, hr⟩ := List.length_eq_one_iff.1 h
    obtain ⟨hmem, hm⟩ := List.mem_filter.1 (hr ▸ List.mem_singleton_self r)
    exact ⟨_, r, hmem, hm, rfl⟩

theorem extractLsb_high_eq_iff :
    w.extractLsb 15 8 = 0x20 ↔ w = encode (.update (w.extractLsb 7 0)) := by
  have hhigh : w.extractLsb 15 8 = 0x20 ↔ w.extractLsb' 12 4 = 2 ∧ w.extractLsb' 8 4 = 0 := by
    simp only [← BitVec.toNat_inj, BitVec.extractLsb_toNat, BitVec.extractLsb'_toNat,
      Nat.shiftRight_eq_div_pow, BitVec.ofNat_eq_ofNat, BitVec.toNat_ofNat]
    have hw := w.isLt
    omega
  rw [hhigh, eq_encode_iff]
  simp [CmdFields.ofWord, Instr.fields, BitVec.extractLsb]

theorem extractLsb_high_encode_update (b : Byte) : (encode (.update b)).extractLsb 15 8 = 0x20 := by
  have hdata : (encode (.update b)).extractLsb 7 0 = b :=
    congrArg CmdFields.data (ofWord_encode (.update b))
  rw [extractLsb_high_eq_iff, hdata]

/-- The UPDATE commands, one a byte. -/
def updates : List Instr := (List.finRange 256).map fun n => .update (.ofFin n)

/-- Every command. -/
def allInstrs : List Instr := [.nop, .init, .finalize] ++ updates

theorem mem_updates (b : Byte) : .update b ∈ updates :=
  List.mem_map.2 ⟨b.toFin, List.mem_finRange _, rfl⟩

theorem mem_allInstrs (i : Instr) : i ∈ allInstrs := by
  cases i with
  | nop => simp [allInstrs]
  | init => simp [allInstrs]
  | update b => exact List.mem_append_right _ (mem_updates b)
  | finalize => simp [allInstrs]

theorem nodup_allInstrs : allInstrs.Nodup := by
  have hupdates : updates.Nodup :=
    (List.nodup_finRange 256).map fun m n h => BitVec.ofFin.inj (Instr.update.inj h)
  refine List.Nodup.append (by decide) hupdates ?_
  simp [updates]

theorem length_updates : updates.length = 256 := by simp [updates]

/-- Settles O2: the legal words are the commands' words, and distinct commands have distinct words. -/
theorem legalWordsMatchOneRow : Obligations.LegalWordsMatchOneRow := by
  refine ⟨rfl, fun w => exists_decode_ok_iff_one_row, fun w r hr hm => ?_,
    allInstrs.map encode, nodup_allInstrs.map encode_injective, ?_, fun w => ?_, ?_⟩
  · exact decode_eq_ok_iff_row.2 ⟨r, hr, beq_iff_eq.2 hm, rfl⟩
  · simp [allInstrs, length_updates]
  · simp only [List.mem_map, mem_allInstrs, true_and, decode_eq_ok_iff]
    exact exists_congr fun _ => eq_comm
  · have hother : ([.nop, .init, .finalize].map encode).filter (fun w => w.extractLsb 15 8 = 0x20) =
        [] := by decide
    have hupdates : (updates.map encode).filter (fun w => w.extractLsb 15 8 = 0x20) =
        updates.map encode := by
      simp [updates, List.filter_eq_self, extractLsb_high_encode_update]
    rw [allInstrs, List.map_append, List.filter_append, hother, hupdates]
    simp [length_updates]

/-- Settles O3: each branch but the last tests for the word of one command, UPDATE's by its high byte. -/
theorem decodeFollowsItsPseudocode : Obligations.DecodeFollowsItsPseudocode := by
  intro w
  split_ifs with hnop hinit hupdate hfinalize
  · exact decode_eq_ok_iff.2 hnop
  · exact decode_eq_ok_iff.2 hinit
  · exact decode_eq_ok_iff.2 (extractLsb_high_eq_iff.1 hupdate)
  · exact decode_eq_ok_iff.2 hfinalize
  · rw [decode_error_iff]
    rintro ⟨i, h⟩
    have hw := decode_eq_ok_iff.1 h
    cases i with
    | nop => exact hnop hw
    | init => exact hinit hw
    | update b => exact hupdate (hw ▸ extractLsb_high_encode_update b)
    | finalize => exact hfinalize hw

/-! ### Illegal words -/

theorem CmdFields.wf_eq_true {f : CmdFields} :
    f.wf = true ↔ f.op.toNat < 4 ∧ f.rsv = 0 ∧ (f.op = 2 ∨ f.data = 0) := by
  simp [wf, opOk, rsvOk, dataOk, and_assoc]

/-- The fields of a command are the legal ones. -/
theorem exists_fields_iff {f : CmdFields} : (∃ i : Instr, f = i.fields) ↔ f.wf = true := by
  constructor
  · rintro ⟨i, rfl⟩
    exact (legalFields i).2
  · intro h
    obtain ⟨hop, hrsv, hdata⟩ := CmdFields.wf_eq_true.1 h
    refine ⟨f.instr, ?_⟩
    obtain ⟨op, rsv, data⟩ := f
    obtain rfl : rsv = 0 := hrsv
    rcases hdata with hupdate | hzero
    · obtain rfl : op = 2 := hupdate
      rfl
    · obtain rfl : data = 0 := hzero
      clear h
      revert op
      decide

theorem exists_decode_error_iff : (∃ e, decode w = .error e) ↔ (CmdFields.ofWord w).wf ≠ true := by
  rw [decode_error_iff, Ne, ← exists_fields_iff]
  simp only [decode_eq_ok_iff, eq_encode_iff]

/-- The three groups of R79. -/
theorem CmdFields.wf_ne_true {f : CmdFields} :
    f.wf ≠ true ↔
      4 ≤ f.op.toNat ∨ f.rsv ≠ 0 ∨ ((f.op = 0 ∨ f.op = 1 ∨ f.op = 3) ∧ f.data ≠ 0) := by
  have hop : ∀ op : BitVec 4, op.toNat < 4 → (op = 0 ∨ op = 1 ∨ op = 3 ↔ op ≠ 2) := by decide
  rw [Ne, wf_eq_true, not_and_or, not_and_or, not_or]
  by_cases h4 : f.op.toNat < 4
  · rw [hop f.op h4, Nat.not_lt]
  · simp [Nat.not_lt.1 h4]

/-- Settles O4: a word is illegal when its fields are no command's. -/
theorem illegalEncodings : Obligations.IllegalEncodings := by
  refine fun w => ⟨exists_decode_error_iff.trans CmdFields.wf_ne_true, fun e s h => ?_⟩
  exact ⟨_, Machine.execute_of_error h s, fun hs => if_pos hs, fun hs => if_neg hs, rfl⟩

/-- The first group of R79 that illegal fields fall in. -/
theorem illegalReason_eq (f : CmdFields) :
    illegalReason f = if 4 ≤ f.op.toNat then .opcode else if f.rsv ≠ 0 then .reserved else .data := by
  simp [illegalReason, CmdFields.opOk, CmdFields.rsvOk]

/-- Settles O6: the reason is read off the fields of any illegal word; the words written out compute. -/
theorem writtenOutWordsDecode : Obligations.WrittenOutWordsDecode := by
  refine ⟨fun w e h => ?_, rfl, rfl, rfl, rfl, rfl, rfl, rfl, rfl, rfl, rfl, rfl, rfl⟩
  rw [decode_error_reason h, illegalReason_eq]
  rfl

end Sys2Proof

/-! The assembler's operands and pseudo-commands (spec/30_encoding.md R80, R81), and HASH from any state
(spec/42_finalize.md R180). -/

namespace Sys2Proof.Machine

variable {s t : State} {m : List Byte}

/-! ### The assembler -/

theorem assemble_eq_some {l : AsmLine} {ws : List CmdWord} (h : assemble l = some ws) :
    l.wf = true ∧ ws = asmWords l := by
  obtain ⟨hwf, hws⟩ := Option.ite_none_right_eq_some.1 h
  exact ⟨hwf, (Option.some.inj hws).symm⟩

theorem assemble_update (b : AsmByte) :
    assemble (.update b) = if b.wf then some [encode (.update (asmByte b))] else none := rfl

/-- The operand as a byte is the operand's number, wherever it is in range (R80). -/
theorem encode_update_ofNat {n : Nat} (h : n < 256) :
    encode (.update (.ofNat 8 n)) = 0x2000 ||| BitVec.ofNat 16 n := by
  have hn : (BitVec.ofNat 8 n).setWidth 16 = BitVec.ofNat 16 n := by
    apply BitVec.eq_of_toNat_eq
    simp only [BitVec.toNat_setWidth, BitVec.toNat_ofNat]
    omega
  rw [encode, hn]

/-- Settles O7: a line assembles when it is well formed, and a byte operand in range is its own byte. -/
theorem assemblerOperands : Obligations.AssemblerOperands := by
  refine ⟨fun n => ?_, fun c => ?_, fun n => ?_, rfl, rfl, rfl, fun l ws => assemble_eq_some⟩
  · rw [assemble_update]
    by_cases h : n < 256
    · simp [AsmByte.wf, asmByte, h, encode_update_ofNat h]
    · simp [AsmByte.wf, h]
  · rw [assemble_update]
    by_cases h : c.toNat < 128
    · simp [AsmByte.wf, asmByte, h, encode_update_ofNat (show c.toNat < 256 by omega)]
    · simp [AsmByte.wf, h]
  · simp [assemble, AsmLine.wf, asmWords]

/-- Settles O8: a pseudo-command's words are listed one operand at a time. -/
theorem pseudoCommandsExpand : Obligations.PseudoCommandsExpand := by
  refine ⟨fun bs => ?_, rfl, fun text => ?_, fun bs => rfl⟩
  · simp only [asmWords]
    exact List.map_eq_flatMap
  · simp [asmWords]

/-! ### HASH -/

/-- A command sequence goes on from where its first part ends (R59). -/
theorem executeAll_append {ws : List CmdWord} (ws' : List CmdWord) (h : executeAll ws s = .next t) :
    executeAll (ws ++ ws') s = executeAll ws' t := by
  induction ws generalizing s with
  | nil => cases h; rfl
  | cons w ws ih =>
    obtain ⟨u, hu⟩ := exists_execute w s
    rw [executeAll_cons_of_next _ hu] at h
    rw [List.cons_append, executeAll_cons_of_next _ hu, ih h]

/-- The engine absorbs the message `m`: no error, not finalized, and `m` accounted for (R35). -/
structure Absorbing (m : List Byte) (s : State) : Prop where
  errcode : s.errcode = .none
  fin : s.fin = false
  accounts : Accounts m s

/-- UPDATE's length check passes while the message fits (R205). -/
theorem Absorbing.updateAccepted (h : Absorbing m s) (hm : m.length < Config.maxMessageBytes) :
    updateAccepted s = true := by
  have htbl := h.accounts.tbl
  have hbuflen := h.accounts.buflen
  rw [Config.maxMessageBytes] at hm
  exact updateAccepted_iff.2 ⟨h.errcode, h.fin, by omega⟩

theorem Absorbing.execute_update (b : AsmByte) (h : Absorbing m s)
    (hm : m.length < Config.maxMessageBytes) :
    execute (updateWord b) s = .next (absorbed (asmByte b) s) := by
  obtain ⟨he, hf, hl⟩ := updateAccepted_iff.1 (h.updateAccepted hm)
  rw [updateWord, execute_of_ok (decode_encode _), exec_update, if_neg (not_not.2 he),
    if_neg (by simp [hf]), if_neg (by omega)]

theorem Absorbing.absorbed (b : Byte) (h : Absorbing m s) (hm : m.length < Config.maxMessageBytes) :
    Absorbing (m ++ [b]) (absorbed b s) :=
  ⟨by simp [h.errcode], by simp [h.fin], h.accounts.absorbed b (h.updateAccepted hm)⟩

/-- UPDATE_BYTES appends its bytes to the message, as long as that fits. -/
theorem Absorbing.executeAll_updates (bs : List AsmByte) (h : Absorbing m s)
    (hm : m.length + bs.length ≤ Config.maxMessageBytes) :
    ∃ t, executeAll (bs.map updateWord) s = .next t ∧ Absorbing (m ++ bs.map asmByte) t ∧
      t.erred = s.erred := by
  induction bs generalizing m s with
  | nil => exact ⟨s, rfl, by simpa using h, rfl⟩
  | cons b bs ih =>
    rw [List.length_cons] at hm
    have hlt : m.length < Config.maxMessageBytes := by omega
    obtain ⟨t, hall, ht, herred⟩ := ih (h.absorbed (asmByte b) hlt) (by simp; omega)
    refine ⟨t, ?_, by simpa using ht, by simpa using herred⟩
    rw [List.map_cons, executeAll_cons_of_next _ (h.execute_update b hlt), hall]

/-- INIT starts the empty message, from any state (R142). -/
theorem absorbing_loadInitial (s : State) : Absorbing [] (loadInitial s) :=
  ⟨rfl, rfl, accounts_nil rfl rfl rfl⟩

/-- Settles O44: INIT starts the empty message, the UPDATEs absorb the bytes, and FINALIZE hashes them. -/
theorem hashSequenceComputesSha256 : Obligations.HashSequenceComputesSha256 := by
  intro s bs hlen
  have hinit : execute (encode .init) s = .next (loadInitial s) := execute_of_ok (decode_encode _) s
  obtain ⟨t, hall, ht, herred⟩ :=
    (absorbing_loadInitial s).executeAll_updates bs (by simpa using hlen)
  obtain ⟨u, hfinal, hdg, -, -, -, hstatus⟩ :=
    finalizeHashesTheMessage t (bs.map asmByte) ht.errcode ht.fin ht.accounts (by simpa using hlen)
  have hu : u = finalized t := by
    rw [exec_finalize] at hfinal
    cases hfinal
    simp [ht.errcode, ht.fin]
  have hlast : execute (encode .finalize) t = .next u := by
    rw [execute_of_ok (decode_encode _), hfinal]
  refine ⟨u, ?_, hdg, hstatus, ?_⟩
  · rw [asmWords, List.cons_append, executeAll_cons_of_next _ hinit, executeAll_append _ hall,
      executeAll_cons_of_next _ hlast]
    rfl
  · rw [hu, finalized_erred, herred, loadInitial_erred]

end Sys2Proof.Machine

/-! What the output ports show (spec/30_encoding.md R74, R75). -/

namespace Sys2Proof.Machine

/-! ### Bytes as one big-endian number -/

/-- The bytes read as one big-endian number. -/
def bigEndian (l : List Byte) : Nat := l.foldl (fun acc b => acc * 256 + b.toNat) 0

theorem bigEndian_append_byte (l : List Byte) (b : Byte) :
    bigEndian (l ++ [b]) = bigEndian l * 256 + b.toNat := by
  simp [bigEndian]

theorem bigEndian_lt (l : List Byte) : bigEndian l < 256 ^ l.length := by
  induction l using List.reverseRecOn with
  | nil => simp [bigEndian]
  | append_singleton l b ih =>
    rw [bigEndian_append_byte, List.length_append, List.length_singleton, Nat.pow_succ]
    omega

/-- The `k`-th byte of the number from its most significant end. -/
theorem bigEndian_byte (l : List Byte) {k : Nat} (hk : k < l.length) :
    bigEndian l / 256 ^ (l.length - 1 - k) % 256 = (l.getD k 0).toNat := by
  induction l using List.reverseRecOn with
  | nil => simp at hk
  | append_singleton l b ih =>
    rw [bigEndian_append_byte]
    rw [List.length_append, List.length_singleton] at hk ⊢
    by_cases hlast : k = l.length
    · have hmod : (bigEndian l * 256 + b.toNat) % 256 = b.toNat := by omega
      simp [hlast, hmod]
    · have hlt : k < l.length := by omega
      have hexp : l.length + 1 - 1 - k = (l.length - 1 - k) + 1 := by omega
      have hdiv : (bigEndian l * 256 + b.toNat) / 256 = bigEndian l := by omega
      rw [hexp, Nat.pow_succ', ← Nat.div_div_eq_div_mul, hdiv, ih hlt, List.getD_append _ _ _ _ hlt]

/-- A register of 256 bits shifts in up to 32 bytes without losing one. -/
theorem toNat_shiftIn {l : List Byte} (h : l.length ≤ 32) :
    (l.foldl (fun (acc : BitVec 256) b => acc <<< 8 ||| b.setWidth 256) 0).toNat = bigEndian l := by
  induction l using List.reverseRecOn with
  | nil => rfl
  | append_singleton l b ih =>
    rw [List.length_append, List.length_singleton] at h
    have hfits : bigEndian l * 256 < 2 ^ 256 := by
      calc bigEndian l * 256
        _ < 256 ^ l.length * 256 := Nat.mul_lt_mul_of_pos_right (bigEndian_lt l) (by omega)
        _ = 256 ^ (l.length + 1) := (Nat.pow_succ ..).symm
        _ ≤ 256 ^ 32 := Nat.pow_le_pow_right (by omega) h
    rw [List.foldl_append, List.foldl_cons, List.foldl_nil, BitVec.toNat_or, BitVec.toNat_shiftLeft,
      BitVec.toNat_setWidth, ih (by omega), bigEndian_append_byte, Nat.shiftLeft_eq,
      Nat.mod_eq_of_lt hfits, Nat.mod_eq_of_lt (b.isLt.trans (by decide)), Nat.mul_comm,
      Nat.two_pow_add_eq_or_of_lt b.isLt]

theorem digestValue_toNat (d : Digest) : (digestValue d).toNat = bigEndian d.toList :=
  toNat_shiftIn (l := d.toList) (by simp)

theorem digestValue_byte (d : Digest) {k : Nat} (hk : k < 32) :
    (digestValue d).extractLsb' (248 - 8 * k) 8 = d.toList.getD k 0 := by
  have hlen : d.toList.length = 32 := by simp
  have hexp : 2 ^ (248 - 8 * k) = 256 ^ (d.toList.length - 1 - k) := by
    rw [hlen, show 248 - 8 * k = 8 * (32 - 1 - k) by omega, Nat.pow_mul]
  apply BitVec.eq_of_toNat_eq
  rw [BitVec.extractLsb'_toNat, digestValue_toNat, Nat.shiftRight_eq_div_pow, hexp]
  exact bigEndian_byte _ (by omega)

set_option maxRecDepth 20000 in
/-- The port's value for the empty message (R74). -/
theorem digestValue_sha256_nil :
    digestValue (sha256 []) = 0xe3b0c44298fc1c149afbf4c8996fb92427ae41e4649b934ca495991b7852b855 := by
  decide

/-! ### The ports -/

theorem statusPort_of_ready {s : State} (h : cmdReady s = true) : statusPort s = status s := if_pos h

theorem digestPort_of_ready {s : State} (h : cmdReady s = true) : digestPort s = digestValue s.dg :=
  if_pos h

/-- Settles O20: the port shifts in the bytes of `DG`, most significant first. -/
theorem digestPortMapping : Obligations.DigestPortMapping := by
  refine ⟨fun s k hs hk => ?_, fun s hs => ?_, digestValue_sha256_nil⟩
  · rw [digestPort_of_ready hs, digestValue_byte _ hk]
  · rw [digestPort_of_ready hs, digestValue_toNat]
    rfl

/-- Settles O58: the free values show only while `cmd_ready = 0`. -/
theorem portsShowTheStateWhenReady : Obligations.PortsShowTheStateWhenReady := fun _ h =>
  ⟨statusPort_of_ready h, digestPort_of_ready h⟩

end Sys2Proof.Machine

/-! What an edge does that accepts a word or none, and how a word that is presented and kept is accepted
(spec/30_encoding.md R73, R82; spec/70_reset_and_hazards.md R234). -/

namespace Sys2Proof.Machine

variable {s e u : State} {w : CmdWord} {i : Instr}

/-- The edge with `cmd_ready = 1` where no word is presented (R82). -/
theorem step_idle (hr : (nextPins s).rst = false) (hs : (nextPins s).stable s.held = true)
    (hb : s.busy = 0) (hv : (nextPins s).cmdValid = false) : step s = .next (takePins s) := by
  have hready : cmdReady s = true := cmdReady_eq_true.2 hb
  simp [step, clockEdge, hr, hs, hready, hv]

/-- Settles O51: such an edge is a busy one or an idle one. -/
theorem noCommandNoEffect : Obligations.NoCommandNoEffect := by
  intro s hr hs hno
  by_cases hb : s.busy = 0
  · have hv : (nextPins s).cmdValid = false := hno.resolve_left (not_not.2 hb)
    exact ⟨_, step_idle hr hs hb hv, rfl, rfl, by simp [hb], rfl⟩
  · exact ⟨_, step_busy hr hs hb, rfl, rfl, rfl, rfl⟩

theorem decode_of_decodeTableWord {n v : Nat} (h : decodeTableWord n v = some i) :
    decode (tableWord n v) = .ok i := by
  unfold decodeTableWord at h
  split at h
  · split at h
    · next hd => rw [hd, Option.some.inj h]
    · cases h
  · cases h

/-- Settles O49: the accepting edge executes the word on the port, which decodes to the command. -/
theorem stepRunsTheDecodedCommand : Obligations.StepRunsTheDecodedCommand := by
  refine ⟨fun s i hr hv hs hb hd => ?_, fun s v i _ hd => ?_⟩
  · rw [step_accept hr hs hb hv, acceptEdge, execute_of_ok hd]
    rfl
  · have hstep : step (s.withFetchWord 16 v) = acceptEdge (tableWord 16 v) (s.withFetchWord 16 v) :=
      step_accept rfl rfl rfl rfl
    rw [hstep, acceptEdge, execute_of_ok (decode_of_decodeTableWord hd)]
    rfl

/-! ### A word that is presented and kept -/

/-- A host that presents the word and keeps it keeps R234, at every edge and at the next one. -/
theorem hostKeeps_present {held : Option CmdWord} (h : (Pins.present w).stable held = true) (n : Nat) :
    HostKeeps held (List.replicate n (.present w)) ∧
      (Pins.present w).stable (heldAfter held (List.replicate n (.present w))) = true := by
  induction n generalizing held with
  | zero => exact ⟨trivial, h⟩
  | succ n ih =>
    obtain ⟨hkeeps, hstable⟩ := ih (held := some w) (stable_some.2 ⟨rfl, rfl⟩)
    exact ⟨⟨rfl, h, hkeeps⟩, hstable⟩

/-- The edge that accepts the word `w`, held or new, leaves the engine as `w` leaves it (R73). -/
theorem step_accepts_present (hb : s.busy = 0) (hs : (Pins.present w).stable s.held = true)
    (hp : nextPins s = .present w) (h : execute w e = .next u) (hes : SameEngine e s) :
    step s = .next (startBusy (u.withPortOf (acceptState s))) := by
  have hex := execute_of_sameEngine (hes.trans (sameEngine_acceptState s)) h
  rw [step_accept (by simp [hp]) (by rwa [hp]) hb (by simp [hp]), hp]
  exact acceptEdge_of_next hex

/-- While the engine is busy the word stays presented, and nothing of the engine changes. -/
theorem core_run_presented {rest : List Pins}
    (hp : s.pins = List.replicate s.busy (.present w) ++ .present w :: rest)
    (hs : (Pins.present w).stable s.held = true) :
    ∃ v : State, core.run s.busy s = .next v ∧ SameEngine s v ∧ v.busy = 0 ∧
      (Pins.present w).stable v.held = true ∧ v.pins = .present w :: rest ∧ v.latency = s.latency := by
  obtain ⟨hkeeps, hstable⟩ := hostKeeps_present hs s.busy
  exact ⟨_, core_run_busy hp List.length_replicate hkeeps, rfl, rfl, hstable, rfl, rfl⟩

/-- Settles O57: the host keeps R234 while the engine is busy, and the first edge with `cmd_ready = 1`
accepts the word. -/
theorem presentedCommandIsAccepted : Obligations.PresentedCommandIsAccepted := by
  intro s w rest hp hheld
  have hstable : (Pins.present w).stable s.held = true := by
    rcases hheld with h | h
    · rw [h, stable_none]
    · exact h ▸ stable_some.2 ⟨rfl, rfl⟩
  have hpins : s.pins = List.replicate s.busy (.present w) ++ .present w :: rest := by
    rw [hp, List.replicate_succ', List.append_assoc]
    rfl
  obtain ⟨v, hrun, hsame, hb, hkept, hv, hlat⟩ := core_run_presented hpins hstable
  obtain ⟨u, hu⟩ := exists_execute w s
  have hnext : nextPins v = .present w := by rw [nextPins, hv]; rfl
  have hstep := step_accepts_present hb hkept hnext hu hsame
  refine ⟨startBusy (u.withPortOf (acceptState v)), u, ?_, hu, rfl, rfl, ?_, ?_⟩
  · rw [core_run_add 1 hrun, core_run_succ 0 hstep, core_run_zero]
  · simp [hv]
  · simp [hlat]

end Sys2Proof.Machine

/-! The compressor's primitives, word addition, and the round constants (spec/40_compressor.md R100 to
R109). -/

namespace Sys2Proof.Machine

/-! ### Rotate, choose and majority -/

/-- Bit `i` of a rotate is bit `i + n` of the word, counted in a circle (R100). -/
theorem getLsbD_rotr (x : Word) {n i : Nat} (hn : n ≤ 32) (hi : i < 32) :
    (rotr x n).getLsbD i = x.getLsbD ((i + n) % 32) := by
  rw [rotr, BitVec.getLsbD_or, BitVec.getLsbD_ushiftRight, BitVec.getLsbD_shiftLeft, Nat.add_comm n i]
  by_cases hwrap : i + n < 32
  · simp [Nat.mod_eq_of_lt hwrap, show i < 32 - n by omega]
  · have hmod : (i + n) % 32 = i - (32 - n) := by omega
    simp [hmod, hi, show ¬i < 32 - n by omega, BitVec.getLsbD_of_ge x (i + n) (by omega)]

theorem rotr_zero (n : Nat) : rotr 0 n = 0 := by
  simp [rotr]

theorem rotr_allOnes {n : Nat} (hn : n ≤ 32) : rotr 0xFFFFFFFF n = 0xFFFFFFFF := by
  rw [show (0xFFFFFFFF : Word) = BitVec.allOnes 32 from rfl]
  refine BitVec.eq_of_getLsbD_eq fun i hi => ?_
  rw [getLsbD_rotr _ hn hi, BitVec.getLsbD_allOnes, BitVec.getLsbD_allOnes]
  simp [hi, Nat.mod_lt]

/-- Settles O9: the rotate turns the word in a circle. -/
theorem rotateIsCircular : Obligations.RotateIsCircular :=
  ⟨fun x n _ hn => ⟨rfl, fun _ hi => getLsbD_rotr x (by omega) hi⟩, by decide,
    fun n _ hn => ⟨rotr_zero n, rotr_allOnes (by omega)⟩, rfl⟩

/-- Each bit of `x` chooses (R102). -/
theorem getLsbD_ch (x y z : Word) {i : Nat} (hi : i < 32) :
    (ch x y z).getLsbD i = if x.getLsbD i then y.getLsbD i else z.getLsbD i := by
  rw [ch, BitVec.getLsbD_xor, BitVec.getLsbD_and, BitVec.getLsbD_and, BitVec.getLsbD_not]
  cases x.getLsbD i <;> simp [hi]

/-- Each bit is the majority of three (R103). -/
theorem getLsbD_maj (x y z : Word) (i : Nat) :
    (maj x y z).getLsbD i =
      (x.getLsbD i && y.getLsbD i || x.getLsbD i && z.getLsbD i || y.getLsbD i && z.getLsbD i) := by
  simp only [maj, BitVec.getLsbD_xor, BitVec.getLsbD_and]
  cases x.getLsbD i <;> cases y.getLsbD i <;> simp

theorem ch_allOnes (y z : Word) : ch 0xFFFFFFFF y z = y := by
  rw [ch, show (0xFFFFFFFF : Word) = BitVec.allOnes 32 from rfl, BitVec.allOnes_and,
    BitVec.not_allOnes, BitVec.zero_and, BitVec.xor_zero]

theorem ch_zero (y z : Word) : ch 0 y z = z := by
  rw [ch, show (0 : Word) = 0#32 from rfl, BitVec.not_zero, BitVec.allOnes_and, BitVec.zero_and,
    BitVec.zero_xor]

theorem maj_self (x z : Word) : maj x x z = x := by
  rw [maj, BitVec.and_self, BitVec.xor_assoc, BitVec.xor_self, BitVec.xor_zero]

/-- Settles O10: the bits of each function, and its corner cases. -/
theorem shiftChooseMajority : Obligations.ShiftChooseMajority :=
  ⟨fun x n => by rw [BitVec.toNat_ushiftRight, Nat.shiftRight_eq_div_pow], rfl, rfl,
    fun x y z => ⟨rfl, fun _ hi => getLsbD_ch x y z hi⟩, fun y z => ⟨ch_allOnes y z, ch_zero y z⟩, rfl,
    fun x y z => ⟨rfl, maj_self x z, fun i _ => getLsbD_maj x y z i⟩, rfl⟩

/-- Settles O11: the formulas are the definitions, and the corner cases evaluate. -/
theorem sigmaFunctions : Obligations.SigmaFunctions :=
  ⟨fun _ => ⟨rfl, rfl, rfl, rfl⟩, by decide⟩

/-! ### Word addition -/

theorem add32_toNat (xs : List Word) : (add32 xs).toNat = (xs.map BitVec.toNat).sum % 2 ^ 32 :=
  BitVec.toNat_ofNat ..

/-- The order of the operands does not matter (R108). -/
theorem add32_perm {xs ys : List Word} (h : xs.Perm ys) : add32 xs = add32 ys := by
  rw [add32, add32, (h.map BitVec.toNat).sum_eq]

/-- The grouping of the operands does not matter: a sum reduced early changes nothing (R108). -/
theorem add32_add32 (xs ys : List Word) : add32 (add32 xs :: ys) = add32 (xs ++ ys) := by
  apply BitVec.eq_of_toNat_eq
  simp [add32_toNat]

/-- Settles O12: the exact sum in the natural numbers has no order and no grouping. -/
theorem wordAdditionLaws : Obligations.WordAdditionLaws :=
  ⟨add32_toNat, fun _ _ => add32_perm, add32_add32, rfl, rfl⟩

/-! ### The round constants -/

/-- Below `18 * 18` trial division by the numbers below 18 decides whether a number is prime. -/
theorem prime_iff_of_lt {p : Nat} (hp : p < 18 * 18) :
    p.Prime ↔ 2 ≤ p ∧ ∀ m < 18, 2 ≤ m → m < p → ¬m ∣ p := by
  refine ⟨fun h => ?_, fun ⟨h2, h⟩ => Nat.prime_def_le_sqrt.2 ⟨h2, fun m hm hle => ?_⟩⟩
  · obtain ⟨h2, hdvd⟩ := Nat.prime_def_lt'.1 h
    exact ⟨h2, fun m _ => hdvd m⟩
  · have hsqrt : p.sqrt < 18 := Nat.sqrt_lt.2 hp
    exact h m (by omega) hm (hle.trans_lt (Nat.sqrt_lt_self h2))

theorem le_of_mem_primes : ∀ p ∈ primes, p ≤ 311 := by
  decide

set_option maxRecDepth 20000 in
theorem mem_primes_iff_trial_division : ∀ p < 312,
    p ∈ primes ↔ 2 ≤ p ∧ ∀ m < 18, 2 ≤ m → m < p → ¬m ∣ p := by
  decide

/-- The list holds the primes up to 311 (R109). -/
theorem mem_primes_iff (p : Nat) : p ∈ primes ↔ p.Prime ∧ p ≤ 311 := by
  by_cases hp : p ≤ 311
  · rw [mem_primes_iff_trial_division p (by omega), prime_iff_of_lt (by omega), and_iff_left hp]
  · exact iff_of_false (fun h => hp (le_of_mem_primes p h)) fun h => hp h.2

set_option maxRecDepth 20000 in
/-- The words of the ROM are the low 32 bits of Mathlib's integer cube roots (R109). -/
theorem kList_getD_toNat : ∀ i < 64,
    (kList.getD i 0).toNat = Nat.nthRoot 3 (primes.getD i 0 * 2 ^ 96) % 2 ^ 32 := by
  decide

set_option maxRecDepth 20000 in
/-- Settles O14, with the integer cube roots as witnesses. -/
theorem roundConstantRom : Obligations.RoundConstantRom :=
  ⟨rfl, mem_primes_iff, by decide, fun i hi =>
    ⟨_, Nat.pow_nthRoot_le (.inl three_ne_zero), Nat.lt_pow_nthRoot_add_one three_ne_zero _,
      kList_getD_toNat i hi⟩⟩

end Sys2Proof.Machine

/-! The message schedule and the rounds of a compression, and the organisation with a sliding window
(spec/40_compressor.md R110 to R116, R119). -/

namespace Sys2Proof.Machine

variable {w win : List Word} {blk : List Byte}

/-! ### The message schedule -/

/-- A word of an extended schedule follows from the words before it. -/
theorem extendSchedule_getD {n i : Nat} (hw : w.length ≤ i) (hi : i < w.length + n) :
    (extendSchedule n w).getD i 0 = nextWord ((extendSchedule n w).take i) := by
  induction n with
  | zero => omega
  | succ n ih =>
    rw [extendSchedule_succ]
    by_cases hlast : i = (extendSchedule n w).length
    · rw [hlast, List.take_left]
      simp
    · have hlt : i < (extendSchedule n w).length := by
        rw [extendSchedule_length] at hlast ⊢
        omega
      rw [List.getD_append _ _ _ _ hlt, List.take_append_of_le_length hlt.le,
        ih (by simpa using hlt)]

/-- The recurrence of R111 for the word that follows the first `i`. -/
theorem nextWord_take {i : Nat} (h16 : 16 ≤ i) (hi : i ≤ w.length) :
    nextWord (w.take i) = add32 [smallSigma1 (w.getD (i - 2) 0), w.getD (i - 7) 0,
      smallSigma0 (w.getD (i - 15) 0), w.getD (i - 16) 0] := by
  have hget : ∀ k, 0 < k → (w.take i).getD (i - k) 0 = w.getD (i - k) 0 := fun k hk => by
    simp [List.getD_eq_getElem?_getD, show i - k < i by omega]
  simp only [nextWord, List.length_take_of_le hi, hget, Nat.zero_lt_succ]

theorem schedule_getD_of_lt (h : blk.length = 64) {j : Nat} (hj : j < 16) :
    (schedule blk).getD j 0 = (blockWords blk).getD j 0 := by
  obtain ⟨t, ht⟩ := extendSchedule_prefix 48 (blockWords blk)
  rw [schedule, ← ht, List.getD_append _ _ _ _ (by rwa [blockWords_length 16 blk h])]

theorem schedule_getD_of_ge (h : blk.length = 64) {i : Nat} (h16 : 16 ≤ i) (hi : i < 64) :
    (schedule blk).getD i 0 =
      add32 [smallSigma1 ((schedule blk).getD (i - 2) 0), (schedule blk).getD (i - 7) 0,
        smallSigma0 ((schedule blk).getD (i - 15) 0), (schedule blk).getD (i - 16) 0] := by
  have hlen := blockWords_length 16 blk h
  have hnext : (schedule blk).getD i 0 = nextWord ((schedule blk).take i) :=
    extendSchedule_getD (by omega) (by omega)
  rw [hnext, nextWord_take h16 (by rw [schedule_length blk h]; omega)]

theorem nextWord_replicate_zero (n : Nat) : nextWord (List.replicate n 0) = 0 := by
  have hget : ∀ k, (List.replicate n (0 : Word)).getD k 0 = 0 := fun k => by
    by_cases hk : k < n <;> simp [hk]
  simp only [nextWord, hget]
  rfl

/-- Zero words are followed by zero words (R111). -/
theorem extendSchedule_replicate_zero (n m : Nat) :
    extendSchedule n (List.replicate m 0) = List.replicate (m + n) 0 := by
  induction n with
  | zero => rfl
  | succ n ih =>
    rw [extendSchedule_succ, ih, nextWord_replicate_zero, ← Nat.add_assoc, List.replicate_succ']

theorem schedule_replicate_zero : schedule (List.replicate 64 0) = List.replicate 64 0 :=
  extendSchedule_replicate_zero 48 16

set_option maxRecDepth 20000 in
/-- Settles O15: the block's words stay the first 16, and each later one follows from those before it. -/
theorem messageSchedule : Obligations.MessageSchedule := by
  refine ⟨fun blk h => ⟨schedule_length blk h, fun j hj => ?_, fun i => schedule_getD_of_ge h⟩,
    schedule_replicate_zero, rfl, by decide⟩
  rw [schedule_getD_of_lt h hj, blockWords_getD 16 j blk h hj]

/-! ### The rounds -/

/-- Settles O16: the round is defined by its assignments, and the examples evaluate. -/
theorem roundAssignments : Obligations.RoundAssignments := by
  refine ⟨fun _ => rfl, fun v k w t1 t2 h1 h2 => ?_, by decide⟩
  rw [h1, h2]
  rfl

theorem zip_append_of_length_le {ks : List Word} (w' : List Word) (h : w.length ≤ ks.length) :
    ks.zip (w ++ w') = ks.zip w ++ (ks.drop w.length).zip w' := by
  induction w generalizing ks with
  | nil => simp
  | cons x w ih =>
    match ks, h with
    | k :: ks, h => simp [ih (Nat.le_of_succ_le_succ h)]

/-- Rounds over `w ++ w'` run over `w` first, and `w'` meets the round constants that are left. -/
theorem runRounds_append (v : WorkVars) (w' : List Word) (h : w.length ≤ 64) :
    runRounds v (w ++ w') =
      ((kList.drop w.length).zip w').foldl (fun v kw => oneRound v kw.1 kw.2) (runRounds v w) := by
  rw [runRounds_eq, zip_append_of_length_le w' h, List.foldl_append, runRounds_eq]

/-- One more schedule word is one more round, with the round constant of the same index (R114). -/
theorem runRounds_append_singleton (v : WorkVars) (x : Word) (h : w.length < 64) :
    runRounds v (w ++ [x]) = oneRound (runRounds v w) (kList.getD w.length 0) x := by
  have hk : w.length < kList.length := h
  rw [runRounds_append v [x] h.le, List.drop_eq_getElem_cons hk, List.getD_eq_getElem _ _ hk,
    List.zip_cons_cons, List.zip_nil_right, List.foldl_cons, List.foldl_nil]

/-- The words after the 64th meet no round constant. -/
theorem runRounds_append_of_length (v : WorkVars) (w' : List Word) (h : w.length = 64) :
    runRounds v (w ++ w') = runRounds v w := by
  rw [runRounds_append v w' h.le, h]
  rfl

/-- The working variables before round `i`. -/
def varsBefore (hin : HashState) (blk : List Byte) (i : Nat) : WorkVars :=
  runRounds (loadVars hin) ((schedule blk).take i)

theorem varsBefore_succ (hin : HashState) (h : blk.length = 64) {i : Nat} (hi : i < 64) :
    varsBefore hin blk (i + 1) =
      oneRound (varsBefore hin blk i) (kList.getD i 0) ((schedule blk).getD i 0) := by
  have hlen : i < (schedule blk).length := by rwa [schedule_length blk h]
  have htake : ((schedule blk).take i).length = i := List.length_take_of_le hlen.le
  have hsucc : (schedule blk).take (i + 1) = (schedule blk).take i ++ [(schedule blk).getD i 0] := by
    rw [List.take_add_one, List.getElem?_eq_getElem hlen, Option.toList_some,
      List.getD_eq_getElem _ _ hlen]
  rw [varsBefore, hsucc, runRounds_append_singleton _ _ (htake.trans_lt hi), htake, varsBefore]

theorem compress_eq_finalAdd (hin : HashState) (h : blk.length = 64) :
    compress hin blk = finalAdd hin (varsBefore hin blk 64) := by
  rw [varsBefore, List.take_of_length_le (schedule_length blk h).le, compress]

set_option maxRecDepth 20000 in
/-- The compression of the empty message's block (R116). -/
theorem compress_empty_message :
    (compress h0Rom (0x80 :: List.replicate 63 0)).toList =
      [0xe3b0c442, 0x98fc1c14, 0x9afbf4c8, 0x996fb924, 0x27ae41e4, 0x649b934c, 0xa495991b,
        0x7852b855] := by
  decide

/-- Settles O17, with the working variables before each round as the sequence. -/
theorem compressRunsSixtyFourRounds : Obligations.CompressRunsSixtyFourRounds := by
  refine ⟨compress_empty_message, rfl, fun hin blk h =>
    ⟨varsBefore hin blk, rfl, fun i hi => varsBefore_succ hin h hi, ?_⟩⟩
  rw [compress_eq_finalAdd hin h]
  rfl

/-! ### The sliding window -/

/-- The next word reads only the last 16 words. -/
theorem nextWord_cons (x : Word) (h : 16 ≤ w.length) : nextWord (x :: w) = nextWord w := by
  have hget : ∀ k, 0 < k → k ≤ 16 → (x :: w).getD (w.length + 1 - k) 0 = w.getD (w.length - k) 0 :=
    fun k hk hk16 => by rw [Nat.succ_sub (hk16.trans h), List.getD_cons_succ]
  simp only [nextWord, List.length_cons, hget, Nat.zero_lt_succ, Nat.reduceLeDiff]

/-- A word that more than 16 words follow plays no part in an extension. -/
theorem extendSchedule_cons (n : Nat) (x : Word) (h : 16 ≤ w.length) :
    extendSchedule n (x :: w) = x :: extendSchedule n w := by
  induction n with
  | zero => rfl
  | succ n ih =>
    have hlen : 16 ≤ (extendSchedule n w).length := by simp; omega
    rw [extendSchedule_succ, ih, nextWord_cons x hlen, extendSchedule_succ, List.cons_append]

/-- The window slides over the schedule: its rounds are those of the schedule it starts. -/
theorem runWindow_eq_foldl (ks : List Word) (v : WorkVars) (h : win.length = 16) :
    runWindow ks win v =
      (ks.zip (extendSchedule ks.length win)).foldl (fun v kw => oneRound v kw.1 kw.2) v := by
  induction ks generalizing win v with
  | nil => rfl
  | cons k ks ih =>
    obtain ⟨x, rest, rfl⟩ := List.exists_cons_of_length_eq_add_one h
    have hlen : (rest ++ [nextWord (x :: rest)]).length = 16 := by simpa using h
    rw [runWindow, List.tail_cons, List.headD_cons, ih _ hlen, List.length_cons, extendSchedule,
      List.cons_append, extendSchedule_cons _ _ hlen.ge, List.zip_cons_cons, List.foldl_cons]

/-- Settles O18: 64 rounds of the window run over the schedule and 16 words that no round uses. -/
theorem slidingWindowCompressorAgrees : Obligations.SlidingWindowCompressorAgrees := by
  intro hin blk h
  obtain ⟨t, ht⟩ := extendSchedule_prefix 16 (schedule blk)
  have hwords : extendSchedule 64 (blockWords blk) = schedule blk ++ t :=
    (extendSchedule_add 48 16 _).trans ht.symm
  have hrounds : runWindow kList (blockWords blk) (loadVars hin) =
      runRounds (loadVars hin) (schedule blk) := by
    rw [runWindow_eq_foldl _ _ (blockWords_length 16 blk h), kList_length, hwords, ← runRounds_eq,
      runRounds_append_of_length _ _ (schedule_length blk h)]
  rw [compressWindow, kRom_toList, hrounds, compress]

end Sys2Proof.Machine

/-! The context commands NOP, INIT and UPDATE, `Execute` as a total function, what writes `TBL`, and
command sequences (spec/41_context_commands.md R140 to R147). -/

namespace Sys2Proof.Machine

variable {s t : State} {w : CmdWord}

/-! ### `Execute` -/

/-- Settles O29: every word is answered by a state, and a word executed with the port's own fields put
back writes none of them. -/
theorem executeIsTotal : Obligations.ExecuteIsTotal := by
  intro w s
  obtain ⟨t, ht⟩ := exists_execute w s
  exact ⟨fun _ h => execute_of_ok h s, fun _ h => execute_of_error h s,
    t.withPortOf s, execute_withPortOf s ht, rfl, rfl, rfl, rfl, rfl⟩

/-! ### NOP -/

/-- A NOP word with `DATA` not 0 is illegal (R79). -/
theorem exists_decode_error_nop_data {b : Byte} (hb : b ≠ 0) :
    ∃ e, decode (CmdFields.mk 0 0 b).toWord = .error e := by
  rw [exists_decode_error_iff, CmdFields.ofWord_toWord, CmdFields.wf_ne_true]
  exact .inr (.inr ⟨.inl rfl, hb⟩)

/-- The word of a number below 256 has that number in `DATA` and nothing else (R72). -/
theorem ofNat_eq_toWord_data {n : Nat} (hn : n < 256) :
    BitVec.ofNat 16 n = (CmdFields.mk 0 0 (.ofNat 8 n)).toWord := by
  have hmod : n % 65536 = n % 256 % 65536 := by omega
  apply BitVec.eq_of_toNat_eq
  simpa [CmdFields.toWord] using hmod

/-- Settles O21: NOP answers its own state, and the words beside it have a `DATA` that is not 0. -/
theorem nopChangesNothing : Obligations.NopChangesNothing := by
  refine ⟨decode_encode .nop, exec_nop, fun n h1 hn => ?_, fun s hs => ⟨s, exec_nop s, hs⟩⟩
  have hb : BitVec.ofNat 8 n ≠ 0 := fun h => by
    have hmod : n % 256 = 0 := by simpa using congrArg BitVec.toNat h
    omega
  rw [ofNat_eq_toWord_data (by omega)]
  exact exists_decode_error_nop_data hb

/-! ### INIT -/

theorem status_loadInitial (s : State) : status (loadInitial s) = 0x0000 := by
  simp [status, finBit, ErrCode.bits]

/-- Settles O22: INIT loads the initial context whatever the state; what clears `ERRCODE` or `FIN` is INIT,
by `execute_errcode_writers` and `execute_fin_clear`; the example is HASH of one byte. -/
theorem initLoadsTheInitialContext : Obligations.InitLoadsTheInitialContext := by
  refine ⟨decode_encode .init, fun s => ?_, rfl, fun w s t h hw => ⟨fun hs ht => ?_, fun hs => ?_⟩, ?_⟩
  · exact ⟨loadInitial s, exec_init s, rfl, rfl, rfl, rfl, rfl, rfl, status_loadInitial s, rfl, rfl,
      rfl, rfl, rfl, rfl, rfl, rfl⟩
  · rcases execute_errcode_writers h (by rw [ht]; exact hs.symm) with ⟨hd, -⟩ | ⟨he, -⟩
    · exact hw hd
    · exact hs he
  · by_contra ht
    exact hw (execute_fin_clear h hs (Bool.eq_false_iff.2 ht))
  · obtain ⟨t, hall, -, hstatus, -⟩ := hashSequenceComputesSha256 .reset [.number 0x61] (by decide)
    exact ⟨t, hall, hstatus⟩

/-! ### UPDATE -/

theorem exec_update_of_accepted (b : Byte) (hs : updateAccepted s = true) :
    exec (.update b) s = .next (absorbed b s) := by
  obtain ⟨he, hf, hl⟩ := updateAccepted_iff.1 hs
  rw [exec_update, if_neg (not_not.2 he), if_neg (by simp [hf]), if_neg (by omega)]

/-- Short of the 64th byte, UPDATE writes `BUF` and `BUFLEN` only (R143). -/
theorem absorbed_frame_of_lt (b : Byte) (h : s.buflen.toNat < 63) :
    (absorbed b s).buflen.toNat = s.buflen.toNat + 1 ∧
      absorbed b s = { s with buf := (absorbed b s).buf, buflen := (absorbed b s).buflen } := by
  rw [absorbed_of_lt b h]
  exact ⟨buflen_succ h, rfl⟩

/-- The 64th byte of a block also writes `H` and `TBL`, and empties the buffer (R144). -/
theorem absorbed_frame_of_eq (b : Byte) (h : s.buflen.toNat = 63) :
    (absorbed b s).tbl = s.tbl + 512 ∧ (absorbed b s).buflen = 0 ∧
      absorbed b s = { s with
        buf := (absorbed b s).buf, h := (absorbed b s).h, tbl := (absorbed b s).tbl, buflen := 0 } := by
  rw [absorbed_of_eq b h]
  exact ⟨rfl, rfl, rfl⟩

/-- One block absorbed from reset: its one compression and its 512 bits (R144). -/
theorem absorbing_block {m : List Byte} (h : Absorbing m s) (hm : m.length = 64) :
    s.h = compress h0Rom m ∧ s.tbl = 512 ∧ s.buflen = 0 := by
  obtain ⟨htbl, hbuflen, -, hhash⟩ := h.accounts
  rw [cutBlocks_block hm] at hhash
  rw [hm] at htbl hbuflen
  exact ⟨hhash, BitVec.eq_of_toNat_eq htbl, BitVec.eq_of_toNat_eq hbuflen⟩

/-- Settles O23: the checks of `exec_update` in their order, then the two ways of `absorbed`; the second
example is the accounting of a message of one block. -/
theorem updateCommand : Obligations.UpdateCommand := by
  refine ⟨fun b s => ⟨fun he => ?_, fun he hf => ?_, fun he hf hl => ?_, fun he hf hl => ?_⟩, ?_, ?_⟩
  · rw [exec_update, if_pos he]
  · rw [exec_update, if_neg (not_not.2 he), if_pos hf, raise, if_pos he]
    rfl
  · rw [exec_update, if_neg (not_not.2 he), if_neg (by simp [hf]), if_pos hl, raise, if_pos he]
    rfl
  · refine ⟨absorbed b s, exec_update_of_accepted b (updateAccepted_iff.2 ⟨he, hf, hl⟩), fun a => ?_,
      absorbed_frame_of_lt b, fun h63 => ?_⟩
    · rw [absorbed_buf, Memory.read_write]
    · obtain ⟨htbl, hrest⟩ := absorbed_frame_of_eq b h63
      refine ⟨?_, ?_, hrest⟩
      · rw [absorbed_h_of_eq b h63, pendingTail, h63]
      · rw [htbl, tbl_add_512 (by omega)]
  · exact ⟨absorbed 0x61 .reset, exec_update_of_accepted 0x61 (by decide), by decide⟩
  · have hreset : Absorbing [] .reset := absorbing_loadInitial .reset
    obtain ⟨t, hall, ht, -⟩ :=
      hreset.executeAll_updates (List.replicate 64 (.number 0)) (by decide)
    rw [List.map_replicate] at hall ht
    exact ⟨t, hall, absorbing_block ht rfl⟩

/-! ### What writes `TBL` -/

theorem execute_tbl_writers (h : execute w s = .next t) (hne : t.tbl ≠ s.tbl) :
    (decode w = .ok .init ∧ t.tbl = 0) ∨
    ((∃ b, decode w = .ok (.update b)) ∧ s.buflen.toNat = 63 ∧ t.tbl.toNat = s.tbl.toNat + 512) ∨
    (decode w = .ok .finalize ∧ t.fin = true ∧
      (s.tbl.toNat + 8 * s.buflen.toNat < 2 ^ 64 →
        t.tbl.toNat = s.tbl.toNat + 8 * s.buflen.toNat)) := by
  rcases execute_effect h with
    ⟨rfl | ⟨e, rfl⟩, -⟩ | ⟨hd, rfl⟩ | ⟨b, hd, hs, rfl⟩ | ⟨hd, -, -, rfl⟩
  · exact absurd rfl hne
  · exact absurd rfl hne
  · exact .inl ⟨hd, rfl⟩
  · obtain ⟨-, -, hl⟩ := updateAccepted_iff.1 hs
    have hn := s.buflen.isLt
    by_cases h63 : s.buflen.toNat = 63
    · refine .inr (.inl ⟨⟨b, hd⟩, h63, ?_⟩)
      rw [absorbed_of_eq b h63, tbl_add_512 (by omega)]
    · exact absurd (by rw [absorbed_of_lt b (by omega)]) hne
  · exact .inr (.inr ⟨hd, rfl, messageBits_toNat⟩)

/-- Settles O31: a reset edge sets `TBL` to 0, and the word an edge accepts writes it as
`execute_tbl_writers` says. -/
theorem lengthCounterWriters : Obligations.LengthCounterWriters := by
  intro s t h hne
  rcases step_engine_cases h with ⟨hr, rfl⟩ | ⟨-, -, hsame⟩ | ⟨w, u, hacc, hex, rfl⟩
  · exact .inl ⟨hr, rfl⟩
  · exact absurd (congrArg State.tbl hsame).symm hne
  · exact .inr ⟨w, hacc, execute_tbl_writers (s := acceptState s) (t := u) hex hne⟩

/-! ### Command sequences -/

theorem execute_nop (s : State) : execute 0x0000 s = .next s := execute_of_ok (decode_encode .nop) s

/-- NOPs anywhere in a command sequence change nothing (R145). -/
theorem executeAll_filter_nop (ws : List CmdWord) (s : State) :
    executeAll ws s = executeAll (ws.filter (· ≠ 0x0000)) s := by
  induction ws generalizing s with
  | nil => rfl
  | cons w ws ih =>
    by_cases hw : w = 0x0000
    · rw [List.filter_cons_of_neg (by simpa using hw), hw, executeAll_cons_of_next ws (execute_nop s), ih]
    · obtain ⟨t, ht⟩ := exists_execute w s
      rw [List.filter_cons_of_pos (by simpa using hw), executeAll_cons_of_next _ ht,
        executeAll_cons_of_next _ ht, ih]

/-- Settles O47: UPDATE_BYTES is one UPDATE a byte, so its words concatenate; a sequence goes on where its
first part ends; and NOPs drop out one by one. -/
theorem streamingEquivalence : Obligations.StreamingEquivalence := by
  refine ⟨fun a b s => ?_, fun _ b _ _ h => executeAll_append b h, executeAll_filter_nop⟩
  simp only [asmWords, List.map_append]

end Sys2Proof.Machine

/-! FINALIZE: the serializer, the length of the padded message, and the bytes of the blocks it compresses
(spec/42_finalize.md R170 to R181, spec/20_memory.md R52). -/

namespace Sys2Proof.Machine

variable {s : State} {m : List Byte}

/-! ### The serializer -/

theorem serialize_toList (h : HashState) : (serialize h).toList = h.toList.flatMap (bytesBE · 4) := rfl

/-- Byte `4i + j` of serialized words is byte `j` of word `i`, most significant byte first (R55). -/
theorem getD_flatMap_bytesBE {ws : List Word} {i j : Nat} (hi : i < ws.length) (hj : j < 4) :
    (ws.flatMap (bytesBE · 4)).getD (4 * i + j) 0 = (ws.getD i 0).extractLsb' (24 - 8 * j) 8 := by
  induction ws generalizing i with
  | nil => cases hi
  | cons w ws ih =>
    rw [List.flatMap_cons]
    cases i with
    | zero =>
      have hlen : j < (bytesBE w 4).length := by simpa using hj
      rw [Nat.mul_zero, Nat.zero_add, List.getD_append _ _ _ _ hlen, List.getD_eq_getElem _ _ hlen,
        bytesBE_getElem, List.getD_cons_zero, show 8 * (4 - 1 - j) = 24 - 8 * j by omega]
    | succ i =>
      have hlen : (bytesBE w 4).length ≤ 4 * (i + 1) + j := by simp; omega
      rw [List.getD_append_right _ _ _ _ hlen, bytesBE_length,
        show 4 * (i + 1) + j - 4 = 4 * i + j by omega, ih (Nat.lt_of_succ_lt_succ hi),
        List.getD_cons_succ]

/-- Each byte of the digest is the byte of `H` that R177 names. -/
theorem serialize_getD (h : HashState) {i j : Nat} (hi : i < 8) (hj : j < 4) :
    (serialize h).toList.getD (4 * i + j) 0 = (h.toList.getD i 0).extractLsb' (24 - 8 * j) 8 :=
  getD_flatMap_bytesBE (by simpa using hi) hj

/-- Settles O19: the words are serialized one after the other. -/
theorem serializerIsBigEndian : Obligations.SerializerIsBigEndian := by
  refine fun h => ⟨?_, fun i j => serialize_getD h⟩
  have hwords : h.toList = [h[0], h[1], h[2], h[3], h[4], h[5], h[6], h[7]] := by
    apply List.ext_getElem (by simp)
    intro k hk _
    rw [Vector.length_toList] at hk
    interval_cases k <;> rfl
  rw [serialize_toList, hwords]
  simp only [List.flatMap_cons, List.flatMap_nil, List.append_nil, List.append_assoc]

/-! ### The length of the padded message -/

@[simp] theorem takeBlocks_length (n : Nat) (l : List Byte) : (takeBlocks n l).length = n := by
  induction n generalizing l with
  | zero => rfl
  | succ n ih => rw [takeBlocks, List.length_cons, ih]

theorem cutBlocks_length (l : List Byte) : (cutBlocks l).length = l.length / 64 :=
  takeBlocks_length _ l

/-- The message, the marker, the zeros and the length field fill whole blocks (R179). -/
theorem padMessage_length (m : List Byte) :
    (padMessage m).length = 64 * (m.length / 64 + 1 + if 56 ≤ m.length % 64 then 1 else 0) := by
  have hparts : (padMessage m).length = m.length + 1 + zeroCount m.length + 8 := by
    simp [padMessage]; omega
  rw [hparts, zeroCount]
  split <;> omega

theorem zeroCount_eq (n : Nat) : (zeroCount n : Int) = (55 - (n : Int)) % 64 := by
  rw [zeroCount]
  omega

/-- Settles O46: the padded message's length, cut into blocks of 64, and the boundary lengths. -/
theorem paddedMessageLength : Obligations.PaddedMessageLength := by
  refine ⟨fun m => ⟨padMessage_length m, ?_⟩, fun n => ⟨zeroCount_eq n, Nat.mod_lt _ (by decide)⟩,
    rfl, rfl, rfl, rfl, rfl⟩
  rw [cutBlocks_length, padMessage_length, Nat.mul_div_cancel_left _ (by decide)]

/-! ### The blocks FINALIZE compresses, byte by byte -/

/-- A block read from `BUF` is the block of its bytes. -/
theorem Memory.readBytes_eq_blockOf {buf : Memory} {byteAt : Nat → Byte}
    (h : ∀ a, a < 64 → buf.read a = byteAt a) : buf.readBytes 0 64 = blockOf byteAt := by
  rw [readBytes, blockOf, List.range_eq_range']
  exact List.map_congr_left fun a ha => h a (by simpa using ha)

/-- The padding of a tail, up to the index where its zeros end (R171 to R173). -/
theorem read_paddedBuf_of_le (buf : Memory) {n j a : Nat} (ha : a ≤ j) :
    (paddedBuf buf n j).read a = firstBlockByte buf.read n a := by
  rw [read_paddedBuf, firstBlockByte]
  rcases Nat.lt_trichotomy a n with hlt | rfl | hgt
  · rw [if_neg (by omega), if_neg hlt.ne, if_pos hlt]
  · rw [if_neg (by omega), if_pos rfl, if_neg (by omega), if_pos rfl]
  · rw [if_pos ⟨hgt, ha⟩, if_neg (by omega), if_neg hgt.ne']

/-- The one last block is the padded tail with the length in the place of its end (R172, R175). -/
theorem oneBlockByte_eq (tail : Nat → Byte) {n : Nat} (hn : n < 56) (len : BitLength) (a : Nat) :
    oneBlockByte tail n len a = if a < 56 then firstBlockByte tail n a else lengthByte len a := by
  rw [oneBlockByte, firstBlockByte]
  by_cases ha : a < 56
  · rw [if_pos ha, if_pos ha]
  · rw [if_neg ha, if_neg ha, if_neg (by omega), if_neg (by omega)]

/-- The bytes of the last block: what stands below the length field, then the length (R175). -/
theorem read_lastBuf_of_lt {a : Nat} (ha : a < 64) :
    (lastBuf s).read a = if a < 56 then (padded s).buf.read a else lengthByte (messageBits s) a := by
  rw [read_lastBuf, lengthByte]
  by_cases hbelow : a < 56
  · rw [if_pos hbelow, if_neg (by omega)]
  · rw [if_neg hbelow, if_pos ⟨by omega, ha⟩]

/-- The last block where the tail leaves room for the length field (R172). -/
theorem read_lastBuf_of_one_block (h : s.buflen.toNat < 56) {a : Nat} (ha : a < 64) :
    (lastBuf s).read a = oneBlockByte s.buf.read s.buflen.toNat (messageBits s) a := by
  rw [read_lastBuf_of_lt ha, oneBlockByte_eq _ h, padded_of_lt h]
  exact if_ctx_congr .rfl (fun hbelow => read_paddedBuf_of_le _ (by omega)) fun _ => rfl

/-- The last block where it does not (R173). -/
theorem read_lastBuf_of_two_blocks (h : 56 ≤ s.buflen.toNat) {a : Nat} (ha : a < 64) :
    (lastBuf s).read a = secondBlockByte (messageBits s) a := by
  rw [read_lastBuf_of_lt ha, secondBlockByte, padded_of_ge h]
  refine if_ctx_congr .rfl (fun hbelow => ?_) fun _ => rfl
  rw [Memory.read_writeZeros, if_pos (by omega)]

/-- What `BUF` holds after a FINALIZE (R178): its last block, byte by byte. -/
theorem read_lastBuf_of_block {byteAt : Nat → Byte} (h : ∀ a, a < 64 → (lastBuf s).read a = byteAt a)
    (a : Nat) : (lastBuf s).read a = if a < 64 then byteAt a else s.buf.read a := by
  by_cases ha : a < 64
  · rw [if_pos ha, h a ha]
  · rw [if_neg ha, read_lastBuf_of_ge s (by omega)]

theorem finalized_h_of_one_block (h : s.buflen.toNat < 56) :
    (finalized s).h =
      compress s.h (blockOf (oneBlockByte s.buf.read s.buflen.toNat (messageBits s))) := by
  rw [finalized_h, Memory.readBytes_eq_blockOf fun _ => read_lastBuf_of_one_block h, padded_of_lt h]

theorem finalized_h_of_two_blocks (h : 56 ≤ s.buflen.toNat) :
    (finalized s).h = compress (compress s.h (blockOf (firstBlockByte s.buf.read s.buflen.toNat)))
      (blockOf (secondBlockByte (messageBits s))) := by
  have hfirst : (paddedBuf s.buf s.buflen.toNat 63).readBytes 0 64 =
      blockOf (firstBlockByte s.buf.read s.buflen.toNat) :=
    Memory.readBytes_eq_blockOf fun _ ha => read_paddedBuf_of_le _ (by omega)
  rw [finalized_h, Memory.readBytes_eq_blockOf fun _ => read_lastBuf_of_two_blocks h, padded_of_ge h]
  simp only [hfirst]

/-! ### The command -/

theorem exec_finalize_of_accepted (he : s.errcode = .none) (hf : s.fin = false) :
    exec .finalize s = .next (finalized s) := by
  rw [exec_finalize, if_neg (not_not.2 he), if_neg (by simp [hf])]

/-- `L` is exactly the length of a message the state accounts for: with the complete blocks' bits in `TBL`,
the sum cannot wrap (R174). -/
theorem Accounts.messageBits_toNat (ha : Accounts m s) : (messageBits s).toNat = 8 * m.length := by
  have htbl := ha.tbl
  have hbound := s.tbl.isLt
  rw [ha.messageBits_eq, BitVec.toNat_ofNat]
  omega

/-- Settles O24: the checks of `exec_finalize` in their order, then the fields of `finalized`; the example is
the digest of the empty message. -/
theorem finalizeCommand : Obligations.FinalizeCommand := by
  refine fun s => ⟨fun he => ?_, fun he hf => ?_, fun he hf => ?_, ?_⟩
  · rw [exec_finalize, if_pos he]
  · rw [exec_finalize, if_neg (not_not.2 he), if_pos hf, raise, if_pos he]
    rfl
  · exact ⟨finalized s, exec_finalize_of_accepted he hf, rfl, rfl, messageBits_toNat,
      fun _ => Accounts.messageBits_toNat,
      fun h => ⟨finalized_h_of_one_block h,
        read_lastBuf_of_block fun _ => read_lastBuf_of_one_block h⟩,
      fun h => ⟨finalized_h_of_two_blocks h,
        read_lastBuf_of_block fun _ => read_lastBuf_of_two_blocks h⟩,
      rfl, fun _ _ => serialize_getD (finalized s).h, finalized_eq s⟩
  · obtain ⟨t, hex, hdg, -, -, -, hstatus⟩ :=
      finalizeHashesTheMessage .reset [] rfl rfl (accounts_nil rfl rfl rfl) (by decide)
    exact ⟨t, hex, hstatus, hdg ▸ digestValue_sha256_nil⟩

end Sys2Proof.Machine

/-! Errors: what raising one records, the lock, the priority of the outcomes, and that no length wraps
(spec/60_exceptions.md R200 to R208). -/

namespace Sys2Proof.Machine

variable {s t : State} {w : CmdWord} {i : Instr}

/-! ### Raising an error -/

theorem raise_of_none (e : EngineError) (he : s.errcode = .none) :
    raise e s = { s with errcode := e.code, erred := true } := by
  rw [raise, if_pos he]

theorem raise_of_locked (e : EngineError) (he : s.errcode ≠ .none) :
    raise e s = { s with erred := true } := by
  rw [raise, if_neg he]

/-- Settles O25: the codes are read off, and `raise` tests for a recorded error. -/
theorem raiseKeepsTheFirstError : Obligations.RaiseKeepsTheFirstError :=
  ⟨rfl, rfl, rfl, rfl, fun e _ => ⟨raise_of_none e, raise_of_locked e⟩⟩

/-- Settles O50: the accepting edge executes the word in a state with the engine of `s`. -/
theorem stepRaisesOnAnIllegalWord : Obligations.StepRaisesOnAnIllegalWord := by
  intro s e hr hv hs hb hd
  refine ⟨startBusy (raise .illegalCommand (acceptState s)), ?_, rfl, rfl, rfl, rfl⟩
  rw [step_accept hr hs hb hv, acceptEdge_of_next (execute_of_error hd _)]

/-! ### The checks of UPDATE and FINALIZE, in their order -/

/-- The lock (R202) comes first. -/
theorem exec_of_locked (hi : i = .finalize ∨ ∃ b, i = .update b) (he : s.errcode ≠ .none) :
    exec i s = .next s := by
  rcases hi with rfl | ⟨b, rfl⟩
  · rw [exec_finalize, if_pos he]
  · rw [exec_update, if_pos he]

/-- A finalized context takes no further UPDATE or FINALIZE (R204). -/
theorem exec_of_fin (hi : i = .finalize ∨ ∃ b, i = .update b) (he : s.errcode = .none)
    (hf : s.fin = true) : exec i s = .next (raise .misuse s) := by
  rcases hi with rfl | ⟨b, rfl⟩
  · rw [exec_finalize, if_neg (not_not.2 he), if_pos hf]
  · rw [exec_update, if_neg (not_not.2 he), if_pos hf]

/-- UPDATE's length check (R205) comes last. -/
theorem exec_update_of_tooLarge (b : Byte) (he : s.errcode = .none) (hf : s.fin = false)
    (hl : 2 ^ 64 ≤ s.tbl.toNat + 8 * (s.buflen.toNat + 1)) :
    exec (.update b) s = .next (raise .inputTooLarge s) := by
  rw [exec_update, if_neg (not_not.2 he), if_neg (by simp [hf]), if_pos hl]

/-- A command past its checks raises nothing, and INIT alone writes `ERRCODE` (R208). -/
theorem exec_completes (hi : i = .nop ∨ i = .init ∨ (i = .finalize ∧ s.errcode = .none ∧ s.fin = false) ∨
      ∃ b, i = .update b ∧ s.errcode = .none ∧ s.fin = false ∧
        s.tbl.toNat + 8 * (s.buflen.toNat + 1) < 2 ^ 64) :
    ∃ t, exec i s = .next t ∧ t.erred = s.erred ∧ t.errcode = if i = .init then .none else s.errcode := by
  rcases hi with rfl | rfl | ⟨rfl, he, hf⟩ | ⟨b, rfl, he, hf, hl⟩
  · exact ⟨s, exec_nop s, rfl, rfl⟩
  · exact ⟨loadInitial s, exec_init s, rfl, rfl⟩
  · exact ⟨finalized s, exec_finalize_of_accepted he hf, finalized_erred s, finalized_errcode s⟩
  · exact ⟨absorbed b s, exec_update_of_accepted b (updateAccepted_iff.2 ⟨he, hf, hl⟩),
      absorbed_erred b s, absorbed_errcode b s⟩

/-- Settles O28: one lemma for each outcome of R208. -/
theorem outcomePriority : Obligations.OutcomePriority := by
  refine fun w s => ⟨fun e hd => execute_of_error hd s, fun i hd => ?_⟩
  rw [execute_of_ok hd]
  refine ⟨fun hi => ⟨exec_of_locked hi, exec_of_fin hi⟩, ?_, exec_completes⟩
  rintro b rfl
  exact exec_update_of_tooLarge b

/-! ### The error lock -/

/-- Under the lock no word but INIT writes anything but the ghost flag (R202). -/
theorem execute_of_locked (h : execute w s = .next t) (he : s.errcode ≠ .none)
    (hw : decode w ≠ .ok .init) : t = { s with erred := t.erred } := by
  rcases execute_effect h with
    ⟨rfl | ⟨e, rfl⟩, -⟩ | ⟨hd, -⟩ | ⟨b, -, hs, -⟩ | ⟨-, hnone, -, -⟩
  · rfl
  · exact raise_of_locked e he
  · exact absurd hd hw
  · exact absurd (updateAccepted_iff.1 hs).1 he
  · exact absurd hnone he

/-- Settles O26: UPDATE and FINALIZE meet the lock first, and raising keeps the recorded error. -/
theorem errorLock : Obligations.ErrorLock := by
  refine fun s he => ⟨fun b => exec_of_locked (.inr ⟨b, rfl⟩) he, exec_of_locked (.inl rfl) he,
    exec_nop s, ⟨loadInitial s, exec_init s, rfl, rfl, rfl, rfl, rfl, rfl⟩, fun w e hd => ?_,
    fun w t h hw => ?_⟩
  · rw [execute_of_error hd, raise_of_locked _ he]
  · rw [execute_of_locked h he hw]
    exact ⟨rfl, rfl, rfl⟩

/-! ### What a word that raises an error changes -/

/-- A word raises an error, and then it is illegal or none was recorded; or it is legal, keeps the ghost
flag and records no error (R201, R202, U13). -/
theorem execute_raises_or_not (h : execute w s = .next t) :
    (((∃ ill, decode w = .error ill) ∨ s.errcode = .none) ∧ ∃ e, t = raise e s) ∨
    ((¬∃ ill, decode w = .error ill) ∧ t.erred = s.erred ∧ (s.errcode = .none → t.errcode = .none)) := by
  have legal {i : Instr} (hd : decode w = .ok i) : ¬∃ e, decode w = .error e := by simp [hd]
  have checked (hw : decode w = .ok .finalize ∨ ∃ b, decode w = .ok (.update b)) :
      ¬∃ e, decode w = .error e := hw.elim legal fun ⟨_, hd⟩ => legal hd
  rcases execute_cases h with ⟨e, hd, rfl⟩ | ⟨hd, rfl⟩ | ⟨hd, rfl⟩ | ⟨hw, -, rfl⟩ | ⟨-, he, -, rfl⟩ |
    ⟨-, -, he, -, -, rfl⟩ | ⟨b, hd, -, -, -, rfl⟩ | ⟨hd, -, -, rfl⟩
  · exact .inl ⟨.inl ⟨e, hd⟩, _, rfl⟩
  · exact .inr ⟨legal hd, rfl, id⟩
  · exact .inr ⟨legal hd, rfl, fun _ => rfl⟩
  · exact .inr ⟨checked hw, rfl, id⟩
  · exact .inl ⟨.inr he, _, rfl⟩
  · exact .inl ⟨.inr he, _, rfl⟩
  · exact .inr ⟨legal hd, absorbed_erred b s, (absorbed_errcode b s).trans⟩
  · exact .inr ⟨legal hd, finalized_erred s, (finalized_errcode s).trans⟩

/-- Settles O27: only a raised error is newly recorded, and `raise` writes nothing else. -/
theorem errorsArePrecise : Obligations.ErrorsArePrecise := by
  intro w s t h herr
  rcases execute_raises_or_not h with ⟨-, e, rfl⟩ | ⟨-, hghost, hnone⟩
  · rfl
  · rcases herr with ⟨hs, ht⟩ | ⟨hs, ht⟩
    · exact absurd (hnone hs) ht
    · simp [hghost, hs] at ht

/-- Settles O34: raising sets the flag, and records the error where none was recorded. -/
theorem ghostFlagRecordsEveryError : Obligations.GhostFlagRecordsEveryError := by
  intro w s t h
  rcases execute_raises_or_not h with ⟨hcause, e, rfl⟩ | ⟨hlegal, hghost, hnone⟩
  · refine iff_of_true rfl (.inr (hcause.imp_right fun he => ⟨he, ?_⟩))
    rw [raise_of_none e he]
    exact e.code_ne_none
  · rw [hghost]
    refine ⟨.inl, fun hs => ?_⟩
    rcases hs with hs | hill | ⟨hs, ht⟩
    · exact hs
    · exact absurd hill hlegal
    · exact absurd (hnone hs) ht

/-! ### The length never wraps -/

/-- The length sum in full: it is 64 bits wide (notes/assumptions/5.md). -/
theorem messageBits_toNat_mod (s : State) :
    (messageBits s).toNat = (s.tbl.toNat + 8 * s.buflen.toNat) % 2 ^ 64 := by
  rw [messageBits, BitVec.toNat_add, BitVec.toNat_ofNat, Nat.add_mod_mod]

/-- Where the length sum fits, no word but INIT takes `TBL` back (R147, R206). -/
theorem execute_tbl_le (h : execute w s = .next t) (hl : s.tbl.toNat + 8 * s.buflen.toNat < 2 ^ 64) :
    decode w = .ok .init ∨ s.tbl.toNat ≤ t.tbl.toNat := by
  by_cases heq : t.tbl = s.tbl
  · exact .inr (heq ▸ le_rfl)
  · rcases execute_tbl_writers h heq with ⟨hd, -⟩ | ⟨-, -, htbl⟩ | ⟨-, -, htbl⟩
    · exact .inl hd
    · exact .inr (htbl ▸ Nat.le_add_right ..)
    · exact .inr (htbl hl ▸ Nat.le_add_right ..)

/-- Settles O41: the invariant bounds the length sum before and after every word. -/
theorem lengthNeverWraps : Obligations.LengthNeverWraps :=
  ⟨fun _ _ _ hi h => ⟨messageBits_toNat hi.lengthFits, execute_tbl_le h hi.lengthFits,
      (execute_inv hi h).lengthFits⟩,
    fun s he hf => ⟨finalized s, exec_finalize_of_accepted he hf, rfl, messageBits_toNat_mod s⟩⟩

end Sys2Proof.Machine

/-! Reset, the stability of a presented command, the edges with `cmd_ready = 0`, and the digest of a run
(spec/70_reset_and_hazards.md R230 to R241). -/

namespace Sys2Proof.Machine

variable {s t : State} {w : CmdWord} {m : List Byte}

/-! ### Edges that accept no word -/

/-- An edge with `rst = 1` comes before any check, whatever is executing or held (R230, R237). -/
theorem step_reset (hr : (nextPins s).rst = true) : step s = .next (resetEdge (nextPins s) s) := by
  simp [step, clockEdge, hr]

/-- An edge with `rst = 0` that breaks command stability (R234). -/
theorem step_unstable (hr : (nextPins s).rst = false) (hs : (nextPins s).stable s.held ≠ true) :
    step s = .refused .unstableCommand := by
  simp [step, clockEdge, hr, hs]

/-- Settles O52: with a word held, a stable edge presents that very word. -/
theorem unstableCommandRefused : Obligations.UnstableCommandRefused := by
  intro s w hheld hr hbreak
  refine step_unstable hr fun hs => ?_
  rw [hheld] at hs
  obtain ⟨hvalid, hcmd⟩ := stable_some.1 hs
  rcases hbreak with hwithdrawn | hchanged
  · simp [hvalid] at hwithdrawn
  · exact hchanged hcmd

/-- Settles O56: such a run writes fields of the port only, and its last edge is the last busy one. -/
theorem readyReturns : Obligations.ReadyReturns := fun _ _ _ hp hlen hk =>
  ⟨_, core_run_busy hp hlen hk, rfl, rfl, rfl, rfl⟩

/-! ### Reset -/

theorem status_resetEdge (p : Pins) (s : State) : status (resetEdge p s) = 0x0000 :=
  status_loadInitial s

theorem digestValue_zeroDigest : digestValue zeroDigest = 0 := by decide

/-- Settles O53: a reset edge loads the initial context, as INIT does. -/
theorem resetEdgeGivesTheResetState : Obligations.ResetEdgeGivesTheResetState := fun s hr =>
  ⟨_, step_reset hr, rfl, rfl, rfl, rfl, rfl, rfl, status_resetEdge _ s,
    loadInitial s, exec_init s, rfl, rfl, rfl, rfl, rfl, rfl⟩

/-- The edges with `cmd_ready = 0` under a host that presents nothing, past the end of `pins`. -/
theorem core_run_busy_of_no_pins (hp : s.pins = []) (hh : s.held = none) :
    core.run s.busy s = .next { s with busy := 0, freeCount := s.freeCount + s.busy } := by
  induction hb : s.busy generalizing s with
  | zero => rw [core_run_zero, Nat.add_zero, ← hb]
  | succ n ih =>
    have hnext : nextPins s = .idle := by rw [nextPins, hp]; rfl
    have hstep : step s = .next (busyEdge .idle s) := by
      rw [← hnext]
      exact step_busy (by simp [hnext]) (by simp [hh]) (by omega)
    have hrun := ih (s := busyEdge .idle s) (by simp [hp]) rfl (by simp [hb])
    rw [core_run_succ _ hstep, hrun]
    simp [busyEdge, takePins, hp, hh, Nat.add_assoc, Nat.add_comm 1]

/-- Settles O54: the busy edges after a reset edge leave the reset values, which the ports then show. -/
theorem resetEdgeOnThePort : Obligations.ResetEdgeOnThePort := by
  intro s hr
  refine ⟨_, step_reset hr, rfl, rfl, rfl, rfl, rfl, fun hh hp => ?_⟩
  refine ⟨_, core_run_busy_of_no_pins hp hh, rfl, ?_, ?_⟩
  · rw [statusPort_of_ready rfl]
    exact status_resetEdge (nextPins s) s
  · rw [digestPort_of_ready rfl]
    exact digestValue_zeroDigest

/-! ### The digest of a run -/

/-- The message of a command sequence whose first word is executed. -/
theorem messageOf_cons_of_next (ws : List CmdWord) (m : List Byte) (h : execute w s = .next t) :
    messageOf (w :: ws) s m = messageOf ws t (messageAfter w s m) := by
  simp [messageOf, h]

/-- A property of a state and the message absorbed that every word keeps holds at the end of a command
sequence (R35, R59). -/
theorem executeAll_induction {P : List Byte → State → Prop}
    (hstep : ∀ {w s t m}, P m s → execute w s = .next t → P (messageAfter w s m) t)
    {ws : List CmdWord} (hs : P m s) (h : executeAll ws s = .next t) : P (messageOf ws s m) t := by
  induction ws generalizing s m with
  | nil => cases h; exact hs
  | cons w ws ih =>
    obtain ⟨u, hu⟩ := exists_execute w s
    rw [executeAll_cons_of_next _ hu] at h
    rw [messageOf_cons_of_next _ _ hu]
    exact ih (hstep hs hu) h

/-- `STATUS` of a finalized context with no error (R32, R178). -/
theorem status_of_fin (he : s.errcode = .none) (hf : s.fin = true) (hn : s.buflen = 0) :
    status s = 0x0040 := by
  simp [status, finBit, ErrCode.bits, he, hf, hn]

/-- Settles O45: the words of a run keep track of the message and keep the invariant, by which `BUFLEN` is
0 while `FIN = 1`. -/
theorem runDigestIsSha256 : Obligations.RunDigestIsSha256 := by
  rintro ws m t ⟨hrun, he, hf, rfl⟩
  have htracks : TracksMessage (messageOf ws .reset []) t :=
    executeAll_induction execute_tracks (tracksMessage_nil rfl rfl rfl rfl) hrun
  have hinv : Inv t :=
    executeAll_induction (P := fun _ => Inv) (m := []) execute_inv invariantHoldsAtReset hrun
  exact ⟨htracks.final hf, status_of_fin he hf (hinv.countFinal hf)⟩

end Sys2Proof.Machine
